-- ==== Sys2Proof/Word.lean ====
section
/-! DEFINITION. The machine's word types (spec/00_scope.md rule R9 and section 6). -/

namespace Sys2Proof

/-- An 8-bit value (`u8`): A, X, Y, SP, P and every memory cell (R9). -/
abbrev Byte := BitVec 8

/-- A 16-bit value (`u16`): an address or the program counter (R9, R15). -/
abbrev Addr := BitVec 16

/-- The 32-bit running total of elapsed cycles (R9, R23). -/
abbrev CycleCount := BitVec 32

end Sys2Proof
end

