-- ==== Sys2Proof/Machine/Bits.lean ====
section
/-! DEFINITION. Extension, byte order and page of the 8- and 16-bit values
(spec/00_scope.md section 6, spec/20_memory.md R32). -/

namespace Sys2Proof

/-- `zext_16(v)`: the 16-bit value of the same number (00_scope.md section 6). -/
def zext16 (v : Byte) : Addr := v.setWidth 16

/-- `sext_16(v)`: `v` if `v[7] = 0`, else `0xFF00 + v` (00_scope.md section 6, R52). -/
def sext16 (v : Byte) : Addr := if v.msb then 0xFF00 + zext16 v else zext16 v

/-- `{hi, lo}`: the 16-bit value `hi*256 + lo`, low byte from the lower address (R32). -/
def word16 (hi lo : Byte) : Addr := hi ++ lo

/-- Bits 7:0 of an address. -/
def lowByte (a : Addr) : Byte := a.extractLsb' 0 8

/-- Bits 15:8 of an address. -/
def highByte (a : Addr) : Byte := a.extractLsb' 8 8

/-- `page(a) = a[15:8]` (R83). -/
def page (a : Addr) : Byte := highByte a

end Sys2Proof
end

