-- ==== Sys2Proof/Machine/Flags.lean ====
section
/-! DEFINITION. The flags of `P` and the flag rules (spec/10_state.md R16, R21; spec/41_alu_flags.md R90 to R97).
Everything here is a function of bytes and numbers; nothing reads the state. -/

namespace Sys2Proof.Machine

/-- The eight bits of `P` by name (R16). `U` is bit 5, "unused-always-1". -/
inductive Flag where
  | C | Z | I | D | B | U | V | N
  deriving DecidableEq, Repr

/-- The bit of `P` that holds a flag (R16). -/
def Flag.bit : Flag → Nat
  | .C => 0
  | .Z => 1
  | .I => 2
  | .D => 3
  | .B => 4
  | .U => 5
  | .V => 6
  | .N => 7

/-- The flag in the packed byte `p`, computed on read (R27). -/
def getFlag (f : Flag) (p : Byte) : Bool := p.getLsbD f.bit

/-- The packed byte with one flag written and every other bit kept (R21, R94). -/
def setFlag (f : Flag) (v : Bool) (p : Byte) : Byte :=
  let mask : Byte := 1#8 <<< f.bit
  if v then p ||| mask else p &&& ~~~mask

/-- `ZeroOf(r)` for any non-negative integer (R90). -/
def zeroOf (r : Nat) : Bool := r % 256 == 0

/-- `SignOf(r)`: bit 7 of `r mod 256` (R91). -/
def signOf (r : Nat) : Bool := (r % 256).testBit 7

/-- `CarryOf(t)` of the unmasked intermediate result (R92). -/
def carryOf (t : Nat) : Bool := decide (t > 0xFF)

/-- `OverflowOf(a, m, r)`: the two-operand sign test (R93). -/
def overflowOf (a m r : Byte) : Bool := a.msb == m.msb && r.msb != a.msb

/-- Sets Zero and Sign from a result byte (R90, R91) and keeps every other bit of `p`. -/
def setZN (r : Byte) (p : Byte) : Byte := setFlag .N (signOf r.toNat) (setFlag .Z (zeroOf r.toNat) p)

/-- The unmasked sum of an add with carry, 0..511 (R96, R110). -/
def addIntermediate (a m : Byte) (cin : Bool) : Nat := a.toNat + m.toNat + cin.toNat

/-- The unmasked result of a shift left by one, 0..510 (R96, R120). -/
def shiftIntermediate (v : Byte) : Nat := v.toNat * 2

/-- An intermediate result reduced modulo 256 (R96, R97). -/
def truncate8 (t : Nat) : Byte := BitVec.ofNat 8 t

/-- The flags after an add with carry: C, Z, V, N written, the rest kept (R110). -/
def flagsOfAdd (a m : Byte) (p : Byte) : Byte :=
  let t := addIntermediate a m (getFlag .C p)
  let r := truncate8 t
  setFlag .V (overflowOf a m r) (setFlag .C (carryOf t) (setZN r p))

/-- The flags after a shift left of `v`: C, Z, N written, the rest kept; C is bit 7 of `v` (R92, R120, R121). -/
def flagsOfShift (v : Byte) (p : Byte) : Byte :=
  setFlag .C v.msb (setZN (truncate8 (shiftIntermediate v)) p)

end Sys2Proof.Machine
end

