-- ==== Sys2Proof/Config.lean ====
section
/-! DEFINITION. What is fixed for this machine: the memory size and the reset values.
No free value stands here: the spec leaves no result of any instruction open (spec/47_step_pc.md R179;
spec/93_implementation_defined.md, end of Part 1). -/

namespace Sys2Proof.Config

/-- The number of memory cells, one per 16-bit address (R9, R22). -/
def memorySize : Nat := 65536

/-- `A` after reset (R25). -/
def resetA : Byte := 0x00
/-- `X` after reset (R25). -/
def resetX : Byte := 0x00
/-- `Y` after reset (R25). -/
def resetY : Byte := 0x00
/-- `SP` after reset (R25); not the `0xFD` of a physical 6502 (N21). -/
def resetSP : Byte := 0x00
/-- `PC` after reset (R25, R210): there is no reset vector. -/
def resetPC : Addr := 0x0000
/-- `P` after reset (R25): bit 5 set, every other bit clear. -/
def resetP : Byte := 0x20
/-- `CYC` after reset (R25; the spec's decision D13). DESIGN CHOICE, unsafe for a claim about CYC: log 3. -/
def resetCyc : CycleCount := 0

end Sys2Proof.Config
end

