-- ==== Sys2Proof/Machine/State.lean ====
section
/-! DEFINITION. The state, the ways a step can stop, and the state after reset
(spec/10_state.md R10 to R27, spec/70_reset_and_hazards.md R210). All of it is plain data. -/

namespace Sys2Proof.Machine

/-- The 65,536-byte memory (R22, R30): the cells that differ from what an unlisted cell reads as
(`Memory.unlisted`, log 1), as (address, byte) pairs in rising order of address. `Memory.wf` (Ops.lean) says
that the form is canonical; every image has exactly one such list. -/
structure Memory where
  cells : List Host.Cell
  deriving DecidableEq, Repr

/-- The register state of R10, as the host may replace it between steps (R213) and as `REG_INIT` gives it
when stepping begins (R9). -/
structure Registers where
  a  : Byte
  x  : Byte
  y  : Byte
  sp : Byte
  pc : Addr
  p  : Byte
  deriving DecidableEq, Repr

/-- The complete architectural state (R10) with the cycle total beside it (R23). There is no other state (R24). -/
structure State where
  /-- `A`, the accumulator (R11). -/
  a   : Byte
  /-- `X`, index register (R12). -/
  x   : Byte
  /-- `Y`, index register (R13). -/
  y   : Byte
  /-- `SP`, which no instruction reads or writes (R14). -/
  sp  : Byte
  /-- `PC`: between steps the address of the next opcode byte (R15). -/
  pc  : Addr
  /-- `P`, the one representation of the flags (R16, R27). -/
  p   : Byte
  /-- `MEM` (R22). -/
  mem : Memory
  /-- `CYC`, the running total of elapsed cycles (R23). -/
  cyc : CycleCount
  deriving DecidableEq, Repr

/-- Why the machine stops: the one exception of R190. -/
inductive Fault where
  /-- `IllegalOpcode(byte)`: `step` raises it when the byte at `PC` is one of the 201 unassigned bytes (R57, R190);
  the state stays what it was (R191), and the outcome goes to the host (R194).
  Safe: the model has no next state where the host might go on (log 6). -/
  | illegalOpcode (b : Byte)
  deriving DecidableEq, Repr

/-- Why the model has no meaning for an instruction. -/
inductive Refusal where
  /-- `exec` answers it for an instruction that has no meaning yet; no arm does. Safe: the model stops. -/
  | notModelled (mnemonic : String)
  deriving DecidableEq, Repr

/-- The registers at the reset state (R25): the default of `REG_INIT` (R9). -/
def Registers.reset : Registers :=
  { a := Config.resetA, x := Config.resetX, y := Config.resetY, sp := Config.resetSP,
    pc := Config.resetPC, p := Config.resetP }

/-- The state in which stepping begins, for the parameters `REG_INIT` and `MEM_INIT` (R9, R212): any registers,
any memory image. Log 2. -/
def State.launch (r : Registers) (image : Memory) : State :=
  { a := r.a, x := r.x, y := r.y, sp := r.sp, pc := r.pc, p := r.p, mem := image, cyc := Config.resetCyc }

/-- The machine right after reset (R25, R210): the reset registers, and memory with nothing listed, since reset
defines no memory contents. -/
def State.reset : State := State.launch Registers.reset ⟨[]⟩

end Sys2Proof.Machine
end

