-- ==== Sys2Proof/Syntax.lean ====
section
/-! DEFINITION. The instructions as syntax: 22 mnemonics, 12 formats, and one constructor of `Instr`
per row of spec/opcode_table.json (spec/30_encoding.md R51, R56). -/

namespace Sys2Proof

/-- The 22 mnemonics (R1). -/
inductive Mnemonic where
  | LDA
  | LDX
  | LDY
  | ADC
  | AND
  | ASL
  | BCC
  | BCS
  | BEQ
  | BMI
  | BNE
  | BPL
  | BVC
  | BVS
  | CLC
  | CLD
  | CLI
  | CLV
  | SEC
  | SED
  | SEI
  | NOP
  deriving DecidableEq, Repr

/-- The twelve formats, one per operand form (R51). -/
inductive Format where
  | IMP
  | ACC
  | IMM
  | ZP
  | ZPX
  | ZPY
  | ABS
  | ABX
  | ABY
  | IZX
  | IZY
  | REL
  deriving DecidableEq, Repr

/-- The number of operand bytes of a format, 0, 1 or 2 (R50, R51, R176). -/
def Format.operandCount : Format → Nat
  | .IMP | .ACC => 0
  | .IMM | .ZP | .ZPX | .ZPY | .IZX | .IZY | .REL => 1
  | .ABS | .ABX | .ABY => 2

/-- The eight operand forms that name a memory byte (kind `address`, R70), with the operand bytes
assembled as R52 says: a zero-page byte, or the 16-bit `addr16`. -/
inductive MemMode where
  /-- Zero Page (R74). -/
  | zp  (zp : Byte)
  /-- Zero Page,X (R75). -/
  | zpx (zp : Byte)
  /-- Zero Page,Y (R76). -/
  | zpy (zp : Byte)
  /-- Absolute (R77). -/
  | abs (addr : Addr)
  /-- Absolute,X (R78). -/
  | abx (addr : Addr)
  /-- Absolute,Y (R79). -/
  | aby (addr : Addr)
  /-- Indirect,X, indexed indirect (R81). -/
  | izx (zp : Byte)
  /-- Indirect,Y, indirect indexed (R82). -/
  | izy (zp : Byte)
  deriving DecidableEq, Repr

/-- What a reading instruction reads: the immediate byte, or a memory byte (R85). -/
inductive Source where
  /-- Immediate (R73). -/
  | imm (imm : Byte)
  | mem (m : MemMode)
  deriving DecidableEq, Repr

/-- An operand form with its operand bytes (R51, R52). -/
inductive Operand where
  /-- Implied (R71). -/
  | imp
  /-- Accumulator (R72). -/
  | acc
  | src (x : Source)
  /-- Relative (R80). -/
  | rel (rel : Byte)
  deriving DecidableEq, Repr

/-- The format of a memory form (R51). -/
def MemMode.format : MemMode → Format
  | .zp _ => .ZP
  | .zpx _ => .ZPX
  | .zpy _ => .ZPY
  | .abs _ => .ABS
  | .abx _ => .ABX
  | .aby _ => .ABY
  | .izx _ => .IZX
  | .izy _ => .IZY

/-- The operand bytes of a memory form in the order they stand in memory (R32, R51). -/
def MemMode.operandBytes : MemMode → List Byte
  | .zp z | .zpx z | .zpy z | .izx z | .izy z => [z]
  | .abs a | .abx a | .aby a => [lowByte a, highByte a]

/-- The format of a reading instruction's operand (R51). -/
def Source.format : Source → Format
  | .imm _ => .IMM
  | .mem m => m.format

/-- The format of an operand form (R51). -/
def Operand.format : Operand → Format
  | .imp => .IMP
  | .acc => .ACC
  | .src x => x.format
  | .rel _ => .REL

/-- The operand bytes of an operand form in the order they stand in memory (R51). -/
def Operand.bytes : Operand → List Byte
  | .imp | .acc => []
  | .src (.imm v) => [v]
  | .src (.mem m) => m.operandBytes
  | .rel d => [d]

/-- The instructions: one constructor per assigned opcode byte (R56). An operand field is an operand
byte of the format, or for ABS, ABX, ABY the `addr16` made of its two operand bytes (R52). -/
inductive Instr where
  /-- LDA, Immediate: byte0 0xA9 (R56, R100). -/
  | ldaImm (imm : Byte)
  /-- LDA, Zero Page: byte0 0xA5 (R56, R100). -/
  | ldaZp (zp : Byte)
  /-- LDA, Zero Page,X: byte0 0xB5 (R56, R100). -/
  | ldaZpx (zp : Byte)
  /-- LDA, Absolute: byte0 0xAD (R56, R100). -/
  | ldaAbs (addr : Addr)
  /-- LDA, Absolute,X: byte0 0xBD (R56, R100). -/
  | ldaAbx (addr : Addr)
  /-- LDA, Absolute,Y: byte0 0xB9 (R56, R100). -/
  | ldaAby (addr : Addr)
  /-- LDA, Indirect,X: byte0 0xA1 (R56, R100). -/
  | ldaIzx (zp : Byte)
  /-- LDA, Indirect,Y: byte0 0xB1 (R56, R100). -/
  | ldaIzy (zp : Byte)
  /-- LDX, Immediate: byte0 0xA2 (R56, R101). -/
  | ldxImm (imm : Byte)
  /-- LDX, Zero Page: byte0 0xA6 (R56, R101). -/
  | ldxZp (zp : Byte)
  /-- LDX, Zero Page,Y: byte0 0xB6 (R56, R101). -/
  | ldxZpy (zp : Byte)
  /-- LDX, Absolute: byte0 0xAE (R56, R101). -/
  | ldxAbs (addr : Addr)
  /-- LDX, Absolute,Y: byte0 0xBE (R56, R101). -/
  | ldxAby (addr : Addr)
  /-- LDY, Immediate: byte0 0xA0 (R56, R102). -/
  | ldyImm (imm : Byte)
  /-- LDY, Zero Page: byte0 0xA4 (R56, R102). -/
  | ldyZp (zp : Byte)
  /-- LDY, Zero Page,X: byte0 0xB4 (R56, R102). -/
  | ldyZpx (zp : Byte)
  /-- LDY, Absolute: byte0 0xAC (R56, R102). -/
  | ldyAbs (addr : Addr)
  /-- LDY, Absolute,X: byte0 0xBC (R56, R102). -/
  | ldyAbx (addr : Addr)
  /-- ADC, Immediate: byte0 0x69 (R56, R110). -/
  | adcImm (imm : Byte)
  /-- ADC, Zero Page: byte0 0x65 (R56, R110). -/
  | adcZp (zp : Byte)
  /-- ADC, Zero Page,X: byte0 0x75 (R56, R110). -/
  | adcZpx (zp : Byte)
  /-- ADC, Absolute: byte0 0x6D (R56, R110). -/
  | adcAbs (addr : Addr)
  /-- ADC, Absolute,X: byte0 0x7D (R56, R110). -/
  | adcAbx (addr : Addr)
  /-- ADC, Absolute,Y: byte0 0x79 (R56, R110). -/
  | adcAby (addr : Addr)
  /-- ADC, Indirect,X: byte0 0x61 (R56, R110). -/
  | adcIzx (zp : Byte)
  /-- ADC, Indirect,Y: byte0 0x71 (R56, R110). -/
  | adcIzy (zp : Byte)
  /-- AND, Immediate: byte0 0x29 (R56, R111). -/
  | andImm (imm : Byte)
  /-- AND, Zero Page: byte0 0x25 (R56, R111). -/
  | andZp (zp : Byte)
  /-- AND, Zero Page,X: byte0 0x35 (R56, R111). -/
  | andZpx (zp : Byte)
  /-- AND, Absolute: byte0 0x2D (R56, R111). -/
  | andAbs (addr : Addr)
  /-- AND, Absolute,X: byte0 0x3D (R56, R111). -/
  | andAbx (addr : Addr)
  /-- AND, Absolute,Y: byte0 0x39 (R56, R111). -/
  | andAby (addr : Addr)
  /-- AND, Indirect,X: byte0 0x21 (R56, R111). -/
  | andIzx (zp : Byte)
  /-- AND, Indirect,Y: byte0 0x31 (R56, R111). -/
  | andIzy (zp : Byte)
  /-- ASL, Accumulator: byte0 0x0A (R56, R120). -/
  | aslAcc
  /-- ASL, Zero Page: byte0 0x06 (R56, R121). -/
  | aslZp (zp : Byte)
  /-- ASL, Zero Page,X: byte0 0x16 (R56, R121). -/
  | aslZpx (zp : Byte)
  /-- ASL, Absolute: byte0 0x0E (R56, R121). -/
  | aslAbs (addr : Addr)
  /-- ASL, Absolute,X: byte0 0x1E (R56, R121). -/
  | aslAbx (addr : Addr)
  /-- BCC, Relative: byte0 0x90 (R56, R131). -/
  | bcc (rel : Byte)
  /-- BCS, Relative: byte0 0xB0 (R56, R132). -/
  | bcs (rel : Byte)
  /-- BEQ, Relative: byte0 0xF0 (R56, R133). -/
  | beq (rel : Byte)
  /-- BMI, Relative: byte0 0x30 (R56, R134). -/
  | bmi (rel : Byte)
  /-- BNE, Relative: byte0 0xD0 (R56, R135). -/
  | bne (rel : Byte)
  /-- BPL, Relative: byte0 0x10 (R56, R136). -/
  | bpl (rel : Byte)
  /-- BVC, Relative: byte0 0x50 (R56, R137). -/
  | bvc (rel : Byte)
  /-- BVS, Relative: byte0 0x70 (R56, R138). -/
  | bvs (rel : Byte)
  /-- CLC, Implied: byte0 0x18 (R56, R150). -/
  | clc
  /-- CLD, Implied: byte0 0xD8 (R56, R151). -/
  | cld
  /-- CLI, Implied: byte0 0x58 (R56, R152). -/
  | cli
  /-- CLV, Implied: byte0 0xB8 (R56, R153). -/
  | clv
  /-- SEC, Implied: byte0 0x38 (R56, R154). -/
  | sec
  /-- SED, Implied: byte0 0xF8 (R56, R155). -/
  | sed
  /-- SEI, Implied: byte0 0x78 (R56, R156). -/
  | sei
  /-- NOP, Implied: byte0 0xEA (R56, R157). -/
  | nop
  deriving DecidableEq, Repr

/-- The mnemonic of an instruction (R56). -/
def Instr.mnemonic : Instr → Mnemonic
  | .ldaImm _ | .ldaZp _ | .ldaZpx _ | .ldaAbs _ | .ldaAbx _ | .ldaAby _ | .ldaIzx _ | .ldaIzy _ => .LDA
  | .ldxImm _ | .ldxZp _ | .ldxZpy _ | .ldxAbs _ | .ldxAby _ => .LDX
  | .ldyImm _ | .ldyZp _ | .ldyZpx _ | .ldyAbs _ | .ldyAbx _ => .LDY
  | .adcImm _ | .adcZp _ | .adcZpx _ | .adcAbs _ | .adcAbx _ | .adcAby _ | .adcIzx _ | .adcIzy _ => .ADC
  | .andImm _ | .andZp _ | .andZpx _ | .andAbs _ | .andAbx _ | .andAby _ | .andIzx _ | .andIzy _ => .AND
  | .aslAcc | .aslZp _ | .aslZpx _ | .aslAbs _ | .aslAbx _ => .ASL
  | .bcc _ => .BCC
  | .bcs _ => .BCS
  | .beq _ => .BEQ
  | .bmi _ => .BMI
  | .bne _ => .BNE
  | .bpl _ => .BPL
  | .bvc _ => .BVC
  | .bvs _ => .BVS
  | .clc => .CLC
  | .cld => .CLD
  | .cli => .CLI
  | .clv => .CLV
  | .sec => .SEC
  | .sed => .SED
  | .sei => .SEI
  | .nop => .NOP

/-- The operand form of an instruction with its operand bytes (R51, R56). -/
def Instr.operand : Instr → Operand
  | .ldaImm imm => .src (.imm imm)
  | .ldaZp zp => .src (.mem (.zp zp))
  | .ldaZpx zp => .src (.mem (.zpx zp))
  | .ldaAbs addr => .src (.mem (.abs addr))
  | .ldaAbx addr => .src (.mem (.abx addr))
  | .ldaAby addr => .src (.mem (.aby addr))
  | .ldaIzx zp => .src (.mem (.izx zp))
  | .ldaIzy zp => .src (.mem (.izy zp))
  | .ldxImm imm => .src (.imm imm)
  | .ldxZp zp => .src (.mem (.zp zp))
  | .ldxZpy zp => .src (.mem (.zpy zp))
  | .ldxAbs addr => .src (.mem (.abs addr))
  | .ldxAby addr => .src (.mem (.aby addr))
  | .ldyImm imm => .src (.imm imm)
  | .ldyZp zp => .src (.mem (.zp zp))
  | .ldyZpx zp => .src (.mem (.zpx zp))
  | .ldyAbs addr => .src (.mem (.abs addr))
  | .ldyAbx addr => .src (.mem (.abx addr))
  | .adcImm imm => .src (.imm imm)
  | .adcZp zp => .src (.mem (.zp zp))
  | .adcZpx zp => .src (.mem (.zpx zp))
  | .adcAbs addr => .src (.mem (.abs addr))
  | .adcAbx addr => .src (.mem (.abx addr))
  | .adcAby addr => .src (.mem (.aby addr))
  | .adcIzx zp => .src (.mem (.izx zp))
  | .adcIzy zp => .src (.mem (.izy zp))
  | .andImm imm => .src (.imm imm)
  | .andZp zp => .src (.mem (.zp zp))
  | .andZpx zp => .src (.mem (.zpx zp))
  | .andAbs addr => .src (.mem (.abs addr))
  | .andAbx addr => .src (.mem (.abx addr))
  | .andAby addr => .src (.mem (.aby addr))
  | .andIzx zp => .src (.mem (.izx zp))
  | .andIzy zp => .src (.mem (.izy zp))
  | .aslAcc => .acc
  | .aslZp zp => .src (.mem (.zp zp))
  | .aslZpx zp => .src (.mem (.zpx zp))
  | .aslAbs addr => .src (.mem (.abs addr))
  | .aslAbx addr => .src (.mem (.abx addr))
  | .bcc rel => .rel rel
  | .bcs rel => .rel rel
  | .beq rel => .rel rel
  | .bmi rel => .rel rel
  | .bne rel => .rel rel
  | .bpl rel => .rel rel
  | .bvc rel => .rel rel
  | .bvs rel => .rel rel
  | .clc => .imp
  | .cld => .imp
  | .cli => .imp
  | .clv => .imp
  | .sec => .imp
  | .sed => .imp
  | .sei => .imp
  | .nop => .imp

/-- The format of an instruction (R51). -/
def Instr.format (i : Instr) : Format := i.operand.format

/-- The length of an instruction in bytes: 1 + operand byte count (R54). -/
def Instr.length (i : Instr) : Nat := 1 + i.format.operandCount

end Sys2Proof
end

