-- ==== Sys2Proof/Machine/Ops.lean ====
section
/-! DEFINITION. The named operations over memory and registers, the end of a step, and the one exception
(spec/20_memory.md, spec/47_step_pc.md R176 and R177, spec/60_exceptions.md R190 to R195). -/

namespace Sys2Proof.Machine

/-- The three outcomes of a step of this machine. -/
abbrev Outcome := Host.Outcome State Fault Refusal

/-- What a cell that is not listed reads as. The spec gives no initial contents (R25, N9): the image is the
parameter `MEM_INIT`, an argument of `State.launch`, and any image can be listed.
DESIGN CHOICE, unsafe for `State.reset` alone: log 1. -/
def Memory.unlisted : Byte := 0x00

/-- The byte a list of cells gives an address. -/
def cellsRead : List Host.Cell → Nat → Byte
  | [], _ => Memory.unlisted
  | (k, v) :: rest, a => if k = a then v else cellsRead rest a

/-- The list without the cells of an address. -/
def cellsErase : List Host.Cell → Nat → List Host.Cell
  | [], _ => []
  | (k, v) :: rest, a => if k = a then cellsErase rest a else (k, v) :: cellsErase rest a

/-- The list with a cell put in before the first higher address. -/
def cellsInsert : List Host.Cell → Nat → Byte → List Host.Cell
  | [], a, v => [(a, v)]
  | (k, w) :: rest, a, v => if a < k then (a, v) :: (k, w) :: rest else (k, w) :: cellsInsert rest a v

/-- The canonical form from address `lo` on: addresses strictly rising, all below 65,536, no byte equal to what
an unlisted cell reads as. -/
def cellsWf : Nat → List Host.Cell → Bool
  | _, [] => true
  | lo, (k, v) :: rest =>
    decide (lo ≤ k) && decide (k < Config.memorySize) && v != Memory.unlisted && cellsWf (k + 1) rest

/-- The memory is in its canonical form, so that equal memories are equal data. -/
def Memory.wf (m : Memory) : Bool := cellsWf 0 m.cells

/-- `MEM[addr]` (R31). -/
def Memory.read (m : Memory) (a : Addr) : Byte := cellsRead m.cells a.toNat

/-- The memory with `MEM[addr]` set to `v` and no other cell changed (R31, R47). -/
def Memory.write (m : Memory) (a : Addr) (v : Byte) : Memory :=
  let others := cellsErase m.cells a.toNat
  ⟨if v = Memory.unlisted then others else cellsInsert others a.toNat v⟩

/-- `MemRead(addr, 1)`: changes nothing and cannot fail (R31, R37). -/
def memRead (a : Addr) (s : State) : Byte := s.mem.read a

/-- `MemWrite(addr, 1, v)`: cannot fail (R31). -/
def memWrite (a : Addr) (v : Byte) (s : State) : State := { s with mem := s.mem.write a v }

/-- `Read16(addr)`: little-endian, the address of the second byte wraps modulo 65536 (R33; D6, log 9). -/
def read16 (a : Addr) (s : State) : Addr := word16 (memRead (a + 1) s) (memRead a s)

/-- `ReadZP16(zp)`: little-endian, the pointer wraps inside page zero (R34; for Indirect,Y by D8, log 10). -/
def readZP16 (zp : Byte) (s : State) : Addr :=
  word16 (memRead (zext16 (zp + 1)) s) (memRead (zext16 zp) s)

/-- The end of a step: the only write of `PC`, and the step's cycles added to `CYC` modulo 2^32
(R170, R176, R177; D13, log 3). -/
def retireAt (next : Addr) (cycles : Nat) (s : State) : Outcome :=
  .next { s with pc := next, cyc := s.cyc + BitVec.ofNat 32 cycles }

/-- The address of the byte after an instruction of format `f` at `pc`: `pc + 1 + operand byte count`
modulo 65536 (R176, R182; D6, log 9). -/
def pcAfter (f : Format) (pc : Addr) : Addr := pc + 1 + BitVec.ofNat 16 f.operandCount

/-- The end of a step that goes on at the next instruction (R176). `s` still holds the `PC` of the step's start. -/
def retire (f : Format) (cycles : Nat) (s : State) : Outcome := retireAt (pcAfter f s.pc) cycles s

/-- Taking the one exception, `IllegalOpcode(b)` (R190, R191): nothing is pushed, no vector is read, nothing changes;
the outcome goes to the host (R194). There is no return from it inside the machine (R195): the host may change
registers or memory (HostAccess.lean) and call `step` again. Safe: log 6. -/
def raiseIllegalOpcode (b : Byte) : Outcome := .fault (.illegalOpcode b)

end Sys2Proof.Machine
end

