-- ==== Sys2Proof/Machine/Operands.lean ====
section
/-! DEFINITION. The addressing-mode resolver: every operand form (spec/40_addressing_modes.md R70 to R85).
The decoder has taken the operand bytes out of memory already, in the order of R46, so the resolver is given
them with the form (log 8). It reads X, Y, memory and, for REL, the address of the opcode byte; it writes nothing. -/

namespace Sys2Proof.Machine

/-- An effective address with the `crossed` output (R70). -/
structure Effective where
  ea      : Addr
  crossed : Bool
  deriving DecidableEq, Repr

/-- Base address plus index register (R78): the low bytes are added, a carry goes into the high byte, which
wraps (D7, log 9); `crossed` is that carry (R83). -/
def indexed (base : Addr) (index : Byte) : Effective :=
  let sum := (lowByte base).toNat + index.toNat
  let crossed := decide (sum > 0xFF)
  ⟨word16 (highByte base + (if crossed then 1 else 0)) (truncate8 sum), crossed⟩

/-- The effective address of the eight forms of kind `address` (R74 to R79, R81, R82). -/
def resolveMem (m : MemMode) (s : State) : Effective :=
  match m with
  | .zp z => ⟨zext16 z, false⟩
  | .zpx z => ⟨zext16 (z + s.x), false⟩
  | .zpy z => ⟨zext16 (z + s.y), false⟩
  | .abs a => ⟨a, false⟩
  | .abx a => indexed a s.x
  | .aby a => indexed a s.y
  | .izx z => ⟨readZP16 (z + s.x) s, false⟩
  | .izy z => indexed (readZP16 z s) s.y

/-- The address of the instruction after a branch at `pc`: the base of the displacement (R80; D4, log 11). -/
def branchBase (pc : Addr) : Addr := pc + 2

/-- The target of a branch at `pc` and whether it lies on another page than the instruction after the branch
(R53, R80; D4, D5, log 11). -/
def branchTarget (pc : Addr) (rel : Byte) : Effective :=
  let base := branchBase pc
  let ea := base + sext16 rel
  ⟨ea, page ea != page base⟩

/-- The resolver's output by kind (R70). -/
inductive Resolved where
  /-- `kind = none`. -/
  | none
  /-- `kind = acc`. -/
  | acc
  /-- `kind = value`. -/
  | value (v : Byte)
  /-- `kind = address`. -/
  | address (e : Effective)
  /-- `kind = target`. -/
  | target (e : Effective)
  deriving DecidableEq, Repr

/-- The `crossed` output, `false` for every form but ABX, ABY, IZY and REL (R70). -/
def Resolved.crossed : Resolved → Bool
  | .none | .acc | .value _ => false
  | .address e | .target e => e.crossed

/-- The operand a reading instruction is handed (R70, R85). -/
def resolveSource (x : Source) (s : State) : Resolved :=
  match x with
  | .imm v => .value v
  | .mem m => .address (resolveMem m s)

/-- `Resolve` (R70, R173). -/
def resolve (o : Operand) (s : State) : Resolved :=
  match o with
  | .imp => .none
  | .acc => .acc
  | .src x => resolveSource x s
  | .rel d => .target (branchTarget s.pc d)

/-- The 8-bit operand `M` of a reading instruction: the value, or the byte at the effective address (R85). -/
def sourceValue (x : Source) (s : State) : Byte :=
  match x with
  | .imm v => v
  | .mem m => memRead (resolveMem m s).ea s

/-- The page-cross penalty of a reading instruction: one cycle if `crossed` (R217). -/
def sourcePenalty (x : Source) (s : State) : Nat := if (resolveSource x s).crossed then 1 else 0

end Sys2Proof.Machine
end

