-- ==== Sys2Proof/Machine/Arith.lean ====
section
/-! DEFINITION. ADC and AND (spec/43_adc_and.md R110 to R112). `P.D` is not read: the sum is always binary (R112).
The base cycles are those of R216 (G3, log 5). -/

namespace Sys2Proof.Machine

/-- ADC on any operand form (R110). -/
def addToA (x : Source) (base : Nat) (s : State) : Outcome :=
  let m := sourceValue x s
  retire x.format (base + sourcePenalty x s)
    { s with a := truncate8 (addIntermediate s.a m (getFlag .C s.p)), p := flagsOfAdd s.a m s.p }

/-- AND on any operand form (R111). -/
def andToA (x : Source) (base : Nat) (s : State) : Outcome :=
  let r := s.a &&& sourceValue x s
  retire x.format (base + sourcePenalty x s) { s with a := r, p := setZN r s.p }

/-- `ADC #imm` (0x69, R110, R73). -/
def execAdcImm (imm : Byte) (s : State) : Outcome := addToA (.imm imm) 2 s

/-- `ADC zp` (0x65, R110, R74). -/
def execAdcZp (zp : Byte) (s : State) : Outcome := addToA (.mem (.zp zp)) 3 s

/-- `ADC zp,X` (0x75, R110, R75). -/
def execAdcZpx (zp : Byte) (s : State) : Outcome := addToA (.mem (.zpx zp)) 4 s

/-- `ADC addr` (0x6D, R110, R77). -/
def execAdcAbs (addr : Addr) (s : State) : Outcome := addToA (.mem (.abs addr)) 4 s

/-- `ADC addr,X` (0x7D, R110, R78). -/
def execAdcAbx (addr : Addr) (s : State) : Outcome := addToA (.mem (.abx addr)) 4 s

/-- `ADC addr,Y` (0x79, R110, R79). -/
def execAdcAby (addr : Addr) (s : State) : Outcome := addToA (.mem (.aby addr)) 4 s

/-- `ADC (zp,X)` (0x61, R110, R81). -/
def execAdcIzx (zp : Byte) (s : State) : Outcome := addToA (.mem (.izx zp)) 6 s

/-- `ADC (zp),Y` (0x71, R110, R82). -/
def execAdcIzy (zp : Byte) (s : State) : Outcome := addToA (.mem (.izy zp)) 5 s

/-- `AND #imm` (0x29, R111, R73). -/
def execAndImm (imm : Byte) (s : State) : Outcome := andToA (.imm imm) 2 s

/-- `AND zp` (0x25, R111, R74). -/
def execAndZp (zp : Byte) (s : State) : Outcome := andToA (.mem (.zp zp)) 3 s

/-- `AND zp,X` (0x35, R111, R75). -/
def execAndZpx (zp : Byte) (s : State) : Outcome := andToA (.mem (.zpx zp)) 4 s

/-- `AND addr` (0x2D, R111, R77). -/
def execAndAbs (addr : Addr) (s : State) : Outcome := andToA (.mem (.abs addr)) 4 s

/-- `AND addr,X` (0x3D, R111, R78). -/
def execAndAbx (addr : Addr) (s : State) : Outcome := andToA (.mem (.abx addr)) 4 s

/-- `AND addr,Y` (0x39, R111, R79). -/
def execAndAby (addr : Addr) (s : State) : Outcome := andToA (.mem (.aby addr)) 4 s

/-- `AND (zp,X)` (0x21, R111, R81). -/
def execAndIzx (zp : Byte) (s : State) : Outcome := andToA (.mem (.izx zp)) 6 s

/-- `AND (zp),Y` (0x31, R111, R82). -/
def execAndIzy (zp : Byte) (s : State) : Outcome := andToA (.mem (.izy zp)) 5 s

end Sys2Proof.Machine
end

