-- ==== Sys2Proof/Machine/Branch.lean ====
section
/-! DEFINITION. The eight conditional branches (spec/45_branch.md R130 to R138). The condition is evaluated on `P` as it
is before the instruction; no flag, register but `PC`, or memory byte is written. Which flag each mnemonic tests
is the spec's decision D22 (log 12). -/

namespace Sys2Proof.Machine

/-- The common mechanism (R130): `PC` goes to the target or to the next instruction in its one write;
2 cycles, +1 if taken, +1 more if taken to another page (R218). -/
def branchIf (cond : Bool) (rel : Byte) (s : State) : Outcome :=
  let target := branchTarget s.pc rel
  if cond then retireAt target.ea (2 + 1 + (if target.crossed then 1 else 0)) s
  else retireAt (branchBase s.pc) 2 s

/-- BCC: branch if carry clear (0x90, R131). -/
def execBcc (rel : Byte) (s : State) : Outcome := branchIf (!getFlag .C s.p) rel s

/-- BCS: branch if carry set (0xB0, R132). -/
def execBcs (rel : Byte) (s : State) : Outcome := branchIf (getFlag .C s.p) rel s

/-- BEQ: branch if zero set (0xF0, R133). -/
def execBeq (rel : Byte) (s : State) : Outcome := branchIf (getFlag .Z s.p) rel s

/-- BMI: branch if sign set (0x30, R134). -/
def execBmi (rel : Byte) (s : State) : Outcome := branchIf (getFlag .N s.p) rel s

/-- BNE: branch if zero clear (0xD0, R135). -/
def execBne (rel : Byte) (s : State) : Outcome := branchIf (!getFlag .Z s.p) rel s

/-- BPL: branch if sign clear (0x10, R136). -/
def execBpl (rel : Byte) (s : State) : Outcome := branchIf (!getFlag .N s.p) rel s

/-- BVC: branch if overflow clear (0x50, R137). -/
def execBvc (rel : Byte) (s : State) : Outcome := branchIf (!getFlag .V s.p) rel s

/-- BVS: branch if overflow set (0x70, R138). -/
def execBvs (rel : Byte) (s : State) : Outcome := branchIf (getFlag .V s.p) rel s

end Sys2Proof.Machine
end

