-- ==== Sys2Proof/Machine/FlagOps.lean ====
section
/-! DEFINITION. CLC, CLD, CLI, CLV, SEC, SED, SEI and NOP (spec/46_flag_nop.md R150 to R158): exactly one flag is
written, or none. Which flag each mnemonic names is the spec's decision D22 (log 12). -/

namespace Sys2Proof.Machine

/-- Writes one flag and goes on at the next instruction, in 2 cycles (R150 to R156, R216). -/
def writeFlag (f : Flag) (v : Bool) (s : State) : Outcome := retire .IMP 2 { s with p := setFlag f v s.p }

/-- CLC: clear carry (0x18, R150). -/
def execClc (s : State) : Outcome := writeFlag .C false s

/-- CLD: clear decimal mode (0xD8, R151). -/
def execCld (s : State) : Outcome := writeFlag .D false s

/-- CLI: clear interrupt-disable (0x58, R152). -/
def execCli (s : State) : Outcome := writeFlag .I false s

/-- CLV: clear overflow (0xB8, R153). -/
def execClv (s : State) : Outcome := writeFlag .V false s

/-- SEC: set carry (0x38, R154). -/
def execSec (s : State) : Outcome := writeFlag .C true s

/-- SED: set decimal mode (0xF8, R155). -/
def execSed (s : State) : Outcome := writeFlag .D true s

/-- SEI: set interrupt-disable (0x78, R156). -/
def execSei (s : State) : Outcome := writeFlag .I true s

/-- NOP (R157): only `PC` and the cycle total change. -/
def execNop (s : State) : Outcome := retire .IMP 2 s

end Sys2Proof.Machine
end

