-- ==== Sys2Proof/Machine/Load.lean ====
section
/-! DEFINITION. LDA, LDX, LDY (spec/42_load.md R100 to R102): copy the operand into the register, set Z and N
from it, touch nothing else. The base cycles are those of R216 (G3, log 5). -/

namespace Sys2Proof.Machine

/-- LDA on any operand form (R100). -/
def loadA (x : Source) (base : Nat) (s : State) : Outcome :=
  let m := sourceValue x s
  retire x.format (base + sourcePenalty x s) { s with a := m, p := setZN m s.p }

/-- LDX on any operand form (R101). -/
def loadX (x : Source) (base : Nat) (s : State) : Outcome :=
  let m := sourceValue x s
  retire x.format (base + sourcePenalty x s) { s with x := m, p := setZN m s.p }

/-- LDY on any operand form (R102). -/
def loadY (x : Source) (base : Nat) (s : State) : Outcome :=
  let m := sourceValue x s
  retire x.format (base + sourcePenalty x s) { s with y := m, p := setZN m s.p }

/-- `LDA #imm` (0xA9, R100, R73). -/
def execLdaImm (imm : Byte) (s : State) : Outcome := loadA (.imm imm) 2 s

/-- `LDA zp` (0xA5, R100, R74). -/
def execLdaZp (zp : Byte) (s : State) : Outcome := loadA (.mem (.zp zp)) 3 s

/-- `LDA zp,X` (0xB5, R100, R75). -/
def execLdaZpx (zp : Byte) (s : State) : Outcome := loadA (.mem (.zpx zp)) 4 s

/-- `LDA addr` (0xAD, R100, R77). -/
def execLdaAbs (addr : Addr) (s : State) : Outcome := loadA (.mem (.abs addr)) 4 s

/-- `LDA addr,X` (0xBD, R100, R78). -/
def execLdaAbx (addr : Addr) (s : State) : Outcome := loadA (.mem (.abx addr)) 4 s

/-- `LDA addr,Y` (0xB9, R100, R79). -/
def execLdaAby (addr : Addr) (s : State) : Outcome := loadA (.mem (.aby addr)) 4 s

/-- `LDA (zp,X)` (0xA1, R100, R81). -/
def execLdaIzx (zp : Byte) (s : State) : Outcome := loadA (.mem (.izx zp)) 6 s

/-- `LDA (zp),Y` (0xB1, R100, R82). -/
def execLdaIzy (zp : Byte) (s : State) : Outcome := loadA (.mem (.izy zp)) 5 s

/-- `LDX #imm` (0xA2, R101, R73). -/
def execLdxImm (imm : Byte) (s : State) : Outcome := loadX (.imm imm) 2 s

/-- `LDX zp` (0xA6, R101, R74). -/
def execLdxZp (zp : Byte) (s : State) : Outcome := loadX (.mem (.zp zp)) 3 s

/-- `LDX zp,Y` (0xB6, R101, R76). -/
def execLdxZpy (zp : Byte) (s : State) : Outcome := loadX (.mem (.zpy zp)) 4 s

/-- `LDX addr` (0xAE, R101, R77). -/
def execLdxAbs (addr : Addr) (s : State) : Outcome := loadX (.mem (.abs addr)) 4 s

/-- `LDX addr,Y` (0xBE, R101, R79). -/
def execLdxAby (addr : Addr) (s : State) : Outcome := loadX (.mem (.aby addr)) 4 s

/-- `LDY #imm` (0xA0, R102, R73). -/
def execLdyImm (imm : Byte) (s : State) : Outcome := loadY (.imm imm) 2 s

/-- `LDY zp` (0xA4, R102, R74). -/
def execLdyZp (zp : Byte) (s : State) : Outcome := loadY (.mem (.zp zp)) 3 s

/-- `LDY zp,X` (0xB4, R102, R75). -/
def execLdyZpx (zp : Byte) (s : State) : Outcome := loadY (.mem (.zpx zp)) 4 s

/-- `LDY addr` (0xAC, R102, R77). -/
def execLdyAbs (addr : Addr) (s : State) : Outcome := loadY (.mem (.abs addr)) 4 s

/-- `LDY addr,X` (0xBC, R102, R78). -/
def execLdyAbx (addr : Addr) (s : State) : Outcome := loadY (.mem (.abx addr)) 4 s

end Sys2Proof.Machine
end

