-- ==== Sys2Proof/Machine/Shift.lean ====
section
/-! DEFINITION. ASL (spec/44_asl.md R120, R121). The memory form reads the byte, then writes the result to the
same address once; there is no write of the old value (D14, log 13). The old carry is not shifted in.
The cycles are those of R216; ABX pays no page-cross penalty (R217, D23, log 5). -/

namespace Sys2Proof.Machine

/-- ASL on a memory operand (R121). -/
def shiftMem (m : MemMode) (cycles : Nat) (s : State) : Outcome :=
  let ea := (resolveMem m s).ea
  let v := memRead ea s
  retire m.format cycles
    { memWrite ea (truncate8 (shiftIntermediate v)) s with p := flagsOfShift v s.p }

/-- ASL A (R120). -/
def execAslAcc (s : State) : Outcome :=
  retire .ACC 2 { s with a := truncate8 (shiftIntermediate s.a), p := flagsOfShift s.a s.p }

/-- `ASL zp` (0x06, R121, R74). -/
def execAslZp (zp : Byte) (s : State) : Outcome := shiftMem (.zp zp) 5 s

/-- `ASL zp,X` (0x16, R121, R75). -/
def execAslZpx (zp : Byte) (s : State) : Outcome := shiftMem (.zpx zp) 6 s

/-- `ASL addr` (0x0E, R121, R77). -/
def execAslAbs (addr : Addr) (s : State) : Outcome := shiftMem (.abs addr) 6 s

/-- `ASL addr,X` (0x1E, R121, R78). -/
def execAslAbx (addr : Addr) (s : State) : Outcome := shiftMem (.abx addr) 7 s

end Sys2Proof.Machine
end

