-- ==== Sys2Proof/WellFormed.lean ====
section
/-! DEFINITION. Well-formedness. A constructor of `Instr` is one of the 55 rows, and every operand byte may hold
all 256 values (R57), so no term of `Instr` is ill formed. The checks bite one level down, on an
instruction written as a mnemonic, a format and a list of operand bytes (log 18): the pair must be a cell
of the mnemonic-by-format table (R56, R85: a pair with no opcode byte cannot be encoded), and there must be
as many operand bytes as the format has (R51, R54). -/

namespace Sys2Proof

/-- An instruction as an assembler would hand it over (R51). -/
structure RawInstr where
  mnemonic : Mnemonic
  format   : Format
  operands : List Byte
  deriving DecidableEq, Repr

/-- The formats a mnemonic has: the rows of R56's second table. PRESUMED by the spec (D3, G2): log 4. -/
def Mnemonic.formats : Mnemonic → List Format
  | .LDA | .ADC | .AND => [.IMM, .ZP, .ZPX, .ABS, .ABX, .ABY, .IZX, .IZY]
  | .LDX => [.IMM, .ZP, .ZPY, .ABS, .ABY]
  | .LDY => [.IMM, .ZP, .ZPX, .ABS, .ABX]
  | .ASL => [.ACC, .ZP, .ZPX, .ABS, .ABX]
  | .BCC | .BCS | .BEQ | .BMI | .BNE | .BPL | .BVC | .BVS => [.REL]
  | .CLC | .CLD | .CLI | .CLV | .SEC | .SED | .SEI | .NOP => [.IMP]

/-- The mnemonic has the format (R56). -/
def RawInstr.formatChecks (r : RawInstr) : Bool := decide (r.format ∈ r.mnemonic.formats)

/-- There are as many operand bytes as the format has (R51, R54). -/
def RawInstr.operandsCheck (r : RawInstr) : Bool := r.operands.length == r.format.operandCount

/-- The instruction can be encoded (R51, R56, R85). -/
def RawInstr.wellFormed (r : RawInstr) : Bool := r.formatChecks && r.operandsCheck

/-- An instruction as mnemonic, format and operand bytes. -/
def Instr.raw (i : Instr) : RawInstr := ⟨i.mnemonic, i.format, i.operand.bytes⟩

/-- Well-formedness of an instruction; it holds of every one (`Sys2Proof.Laws.WellFormedAll`). -/
def Instr.wellFormed (i : Instr) : Bool := i.raw.wellFormed

end Sys2Proof
end

