-- ==== Sys2Proof/Decode.lean ====
section
/-! DEFINITION. The instruction decoder and the encoder (spec/30_encoding.md R50 to R62). The decoder looks the
opcode byte up in the 55-row table of R56 (first form, by byte). The encoder is written from R56's second form,
by mnemonic and format. The byte values and which formats a mnemonic has are the spec's
general-knowledge passages G1, G2 (decisions D2, D3). PRESUMED, not safe: log 4. -/

namespace Sys2Proof

/-- The page-cross or branch adjustment of an opcode's cycle count (R55, R177). -/
inductive CycleRule where
  /-- The base count always. -/
  | fixed
  /-- +1 if the resolver's `crossed` is true (R217). -/
  | ifCrossed
  /-- +1 if taken, +1 more if taken and `crossed` (R218). -/
  | branch
  deriving DecidableEq, Repr

/-- The decoder's record for an assigned opcode byte (R55): mnemonic, format (which fixes the operand byte
count), base cycle count and cycle adjustment. -/
structure OpcodeRow where
  byte       : Byte
  mnemonic   : Mnemonic
  format     : Format
  baseCycles : Nat
  cycleRule  : CycleRule
  deriving DecidableEq, Repr

/-- The assigned bytes 0x00 to 0x3F in R56's order; cycles from R216. -/
def opcodeRows0 : List OpcodeRow := [
  ⟨0x06, .ASL, .ZP, 5, .fixed⟩,
  ⟨0x0A, .ASL, .ACC, 2, .fixed⟩,
  ⟨0x0E, .ASL, .ABS, 6, .fixed⟩,
  ⟨0x10, .BPL, .REL, 2, .branch⟩,
  ⟨0x16, .ASL, .ZPX, 6, .fixed⟩,
  ⟨0x18, .CLC, .IMP, 2, .fixed⟩,
  ⟨0x1E, .ASL, .ABX, 7, .fixed⟩,
  ⟨0x21, .AND, .IZX, 6, .fixed⟩,
  ⟨0x25, .AND, .ZP, 3, .fixed⟩,
  ⟨0x29, .AND, .IMM, 2, .fixed⟩,
  ⟨0x2D, .AND, .ABS, 4, .fixed⟩,
  ⟨0x30, .BMI, .REL, 2, .branch⟩,
  ⟨0x31, .AND, .IZY, 5, .ifCrossed⟩,
  ⟨0x35, .AND, .ZPX, 4, .fixed⟩,
  ⟨0x38, .SEC, .IMP, 2, .fixed⟩,
  ⟨0x39, .AND, .ABY, 4, .ifCrossed⟩,
  ⟨0x3D, .AND, .ABX, 4, .ifCrossed⟩]

/-- The assigned bytes 0x40 to 0x7F in R56's order; cycles from R216. -/
def opcodeRows4 : List OpcodeRow := [
  ⟨0x50, .BVC, .REL, 2, .branch⟩,
  ⟨0x58, .CLI, .IMP, 2, .fixed⟩,
  ⟨0x61, .ADC, .IZX, 6, .fixed⟩,
  ⟨0x65, .ADC, .ZP, 3, .fixed⟩,
  ⟨0x69, .ADC, .IMM, 2, .fixed⟩,
  ⟨0x6D, .ADC, .ABS, 4, .fixed⟩,
  ⟨0x70, .BVS, .REL, 2, .branch⟩,
  ⟨0x71, .ADC, .IZY, 5, .ifCrossed⟩,
  ⟨0x75, .ADC, .ZPX, 4, .fixed⟩,
  ⟨0x78, .SEI, .IMP, 2, .fixed⟩,
  ⟨0x79, .ADC, .ABY, 4, .ifCrossed⟩,
  ⟨0x7D, .ADC, .ABX, 4, .ifCrossed⟩]

/-- The assigned bytes 0x80 to 0xBF in R56's order; cycles from R216. -/
def opcodeRows8 : List OpcodeRow := [
  ⟨0x90, .BCC, .REL, 2, .branch⟩,
  ⟨0xA0, .LDY, .IMM, 2, .fixed⟩,
  ⟨0xA1, .LDA, .IZX, 6, .fixed⟩,
  ⟨0xA2, .LDX, .IMM, 2, .fixed⟩,
  ⟨0xA4, .LDY, .ZP, 3, .fixed⟩,
  ⟨0xA5, .LDA, .ZP, 3, .fixed⟩,
  ⟨0xA6, .LDX, .ZP, 3, .fixed⟩,
  ⟨0xA9, .LDA, .IMM, 2, .fixed⟩,
  ⟨0xAC, .LDY, .ABS, 4, .fixed⟩,
  ⟨0xAD, .LDA, .ABS, 4, .fixed⟩,
  ⟨0xAE, .LDX, .ABS, 4, .fixed⟩,
  ⟨0xB0, .BCS, .REL, 2, .branch⟩,
  ⟨0xB1, .LDA, .IZY, 5, .ifCrossed⟩,
  ⟨0xB4, .LDY, .ZPX, 4, .fixed⟩,
  ⟨0xB5, .LDA, .ZPX, 4, .fixed⟩,
  ⟨0xB6, .LDX, .ZPY, 4, .fixed⟩,
  ⟨0xB8, .CLV, .IMP, 2, .fixed⟩,
  ⟨0xB9, .LDA, .ABY, 4, .ifCrossed⟩,
  ⟨0xBC, .LDY, .ABX, 4, .ifCrossed⟩,
  ⟨0xBD, .LDA, .ABX, 4, .ifCrossed⟩,
  ⟨0xBE, .LDX, .ABY, 4, .ifCrossed⟩]

/-- The assigned bytes 0xC0 to 0xFF in R56's order; cycles from R216. -/
def opcodeRowsC : List OpcodeRow := [
  ⟨0xD0, .BNE, .REL, 2, .branch⟩,
  ⟨0xD8, .CLD, .IMP, 2, .fixed⟩,
  ⟨0xEA, .NOP, .IMP, 2, .fixed⟩,
  ⟨0xF0, .BEQ, .REL, 2, .branch⟩,
  ⟨0xF8, .SED, .IMP, 2, .fixed⟩]

/-- The 55 assigned opcode bytes (R56). -/
def opcodeTable : List OpcodeRow := opcodeRows0 ++ opcodeRows4 ++ opcodeRows8 ++ opcodeRowsC

/-- `Decode(b0)` (R55, R172): the record of an assigned byte, `none` for the 201 unassigned ones (R57). -/
def lookupOpcode (b : Byte) : Option OpcodeRow := opcodeTable.find? fun r => r.byte == b

/-- The instruction of a mnemonic and format with its operand bytes `b1`, `b2` (only as many are used
as the format has), assembled as R52 says; `none` for a pair with no opcode byte (R85). -/
def assemble (m : Mnemonic) (f : Format) (b1 b2 : Byte) : Option Instr :=
  match m, f with
  | .LDA, .IMM => some (.ldaImm b1)
  | .LDA, .ZP => some (.ldaZp b1)
  | .LDA, .ZPX => some (.ldaZpx b1)
  | .LDA, .ABS => some (.ldaAbs (word16 b2 b1))
  | .LDA, .ABX => some (.ldaAbx (word16 b2 b1))
  | .LDA, .ABY => some (.ldaAby (word16 b2 b1))
  | .LDA, .IZX => some (.ldaIzx b1)
  | .LDA, .IZY => some (.ldaIzy b1)
  | .LDX, .IMM => some (.ldxImm b1)
  | .LDX, .ZP => some (.ldxZp b1)
  | .LDX, .ZPY => some (.ldxZpy b1)
  | .LDX, .ABS => some (.ldxAbs (word16 b2 b1))
  | .LDX, .ABY => some (.ldxAby (word16 b2 b1))
  | .LDY, .IMM => some (.ldyImm b1)
  | .LDY, .ZP => some (.ldyZp b1)
  | .LDY, .ZPX => some (.ldyZpx b1)
  | .LDY, .ABS => some (.ldyAbs (word16 b2 b1))
  | .LDY, .ABX => some (.ldyAbx (word16 b2 b1))
  | .ADC, .IMM => some (.adcImm b1)
  | .ADC, .ZP => some (.adcZp b1)
  | .ADC, .ZPX => some (.adcZpx b1)
  | .ADC, .ABS => some (.adcAbs (word16 b2 b1))
  | .ADC, .ABX => some (.adcAbx (word16 b2 b1))
  | .ADC, .ABY => some (.adcAby (word16 b2 b1))
  | .ADC, .IZX => some (.adcIzx b1)
  | .ADC, .IZY => some (.adcIzy b1)
  | .AND, .IMM => some (.andImm b1)
  | .AND, .ZP => some (.andZp b1)
  | .AND, .ZPX => some (.andZpx b1)
  | .AND, .ABS => some (.andAbs (word16 b2 b1))
  | .AND, .ABX => some (.andAbx (word16 b2 b1))
  | .AND, .ABY => some (.andAby (word16 b2 b1))
  | .AND, .IZX => some (.andIzx b1)
  | .AND, .IZY => some (.andIzy b1)
  | .ASL, .ACC => some .aslAcc
  | .ASL, .ZP => some (.aslZp b1)
  | .ASL, .ZPX => some (.aslZpx b1)
  | .ASL, .ABS => some (.aslAbs (word16 b2 b1))
  | .ASL, .ABX => some (.aslAbx (word16 b2 b1))
  | .BCC, .REL => some (.bcc b1)
  | .BCS, .REL => some (.bcs b1)
  | .BEQ, .REL => some (.beq b1)
  | .BMI, .REL => some (.bmi b1)
  | .BNE, .REL => some (.bne b1)
  | .BPL, .REL => some (.bpl b1)
  | .BVC, .REL => some (.bvc b1)
  | .BVS, .REL => some (.bvs b1)
  | .CLC, .IMP => some .clc
  | .CLD, .IMP => some .cld
  | .CLI, .IMP => some .cli
  | .CLV, .IMP => some .clv
  | .SEC, .IMP => some .sec
  | .SED, .IMP => some .sed
  | .SEI, .IMP => some .sei
  | .NOP, .IMP => some .nop
  | _, _ => none

/-- Why a list of bytes holds no instruction. -/
inductive DecodeError where
  /-- There is no opcode byte. -/
  | noBytes
  /-- The opcode byte is one of the 201 unassigned ones (R57). -/
  | unassigned (b : Byte)
  /-- The opcode byte `b` is assigned, and the list ends before its last operand byte. -/
  | truncated (b : Byte)
  deriving DecidableEq, Repr

/-- The instruction of row `r` on the bytes that follow the opcode byte, and the bytes after it. -/
def decodeRow (r : OpcodeRow) (rest : List Byte) : Except DecodeError (Instr × List Byte) :=
  match r.format.operandCount, rest with
  | 0, rest => finish r 0 0 rest
  | 1, b1 :: rest => finish r b1 0 rest
  | 2, b1 :: b2 :: rest => finish r b1 b2 rest
  | _, _ => .error (.truncated r.byte)
where
  /-- Every row of the table has an instruction (`assemble_row` in Laws/Decode.lean). -/
  finish (r : OpcodeRow) (b1 b2 : Byte) (rest : List Byte) : Except DecodeError (Instr × List Byte) :=
    match assemble r.mnemonic r.format b1 b2 with
    | some i => .ok (i, rest)
    | none => .error (.unassigned r.byte)

/-- The decoder on any bytes: opcode byte first, then the operand bytes in ascending address order (R50, R54).
It answers the instruction and the bytes after it, or the name of what is wrong. -/
def decode : List Byte → Except DecodeError (Instr × List Byte)
  | [] => .error .noBytes
  | b :: rest =>
    match lookupOpcode b with
    | none => .error (.unassigned b)
    | some r => decodeRow r rest

/-- The opcode byte of a mnemonic and format: R56's second table, cell by cell. -/
def opcodeByte (m : Mnemonic) (f : Format) : Option Byte :=
  match m, f with
  | .LDA, .IMM => some 0xA9
  | .LDA, .ZP => some 0xA5
  | .LDA, .ZPX => some 0xB5
  | .LDA, .ABS => some 0xAD
  | .LDA, .ABX => some 0xBD
  | .LDA, .ABY => some 0xB9
  | .LDA, .IZX => some 0xA1
  | .LDA, .IZY => some 0xB1
  | .LDX, .IMM => some 0xA2
  | .LDX, .ZP => some 0xA6
  | .LDX, .ZPY => some 0xB6
  | .LDX, .ABS => some 0xAE
  | .LDX, .ABY => some 0xBE
  | .LDY, .IMM => some 0xA0
  | .LDY, .ZP => some 0xA4
  | .LDY, .ZPX => some 0xB4
  | .LDY, .ABS => some 0xAC
  | .LDY, .ABX => some 0xBC
  | .ADC, .IMM => some 0x69
  | .ADC, .ZP => some 0x65
  | .ADC, .ZPX => some 0x75
  | .ADC, .ABS => some 0x6D
  | .ADC, .ABX => some 0x7D
  | .ADC, .ABY => some 0x79
  | .ADC, .IZX => some 0x61
  | .ADC, .IZY => some 0x71
  | .AND, .IMM => some 0x29
  | .AND, .ZP => some 0x25
  | .AND, .ZPX => some 0x35
  | .AND, .ABS => some 0x2D
  | .AND, .ABX => some 0x3D
  | .AND, .ABY => some 0x39
  | .AND, .IZX => some 0x21
  | .AND, .IZY => some 0x31
  | .ASL, .ACC => some 0x0A
  | .ASL, .ZP => some 0x06
  | .ASL, .ZPX => some 0x16
  | .ASL, .ABS => some 0x0E
  | .ASL, .ABX => some 0x1E
  | .BCC, .REL => some 0x90
  | .BCS, .REL => some 0xB0
  | .BEQ, .REL => some 0xF0
  | .BMI, .REL => some 0x30
  | .BNE, .REL => some 0xD0
  | .BPL, .REL => some 0x10
  | .BVC, .REL => some 0x50
  | .BVS, .REL => some 0x70
  | .CLC, .IMP => some 0x18
  | .CLD, .IMP => some 0xD8
  | .CLI, .IMP => some 0x58
  | .CLV, .IMP => some 0xB8
  | .SEC, .IMP => some 0x38
  | .SED, .IMP => some 0xF8
  | .SEI, .IMP => some 0x78
  | .NOP, .IMP => some 0xEA
  | _, _ => none

/-- The bytes of a raw instruction; `none` if it is ill formed. -/
def RawInstr.encode (r : RawInstr) : Option (List Byte) :=
  match r.wellFormed, opcodeByte r.mnemonic r.format with
  | true, some b => some (b :: r.operands)
  | _, _ => none

/-- The bytes of an instruction (R50, R51, R56): its opcode byte, then its operand bytes.
Every instruction has an opcode byte (`EncodedBytes` in Laws/PerInstr.lean), so the last arm is never reached. -/
def encode (i : Instr) : List Byte :=
  match i.raw.encode with
  | some bytes => bytes
  | none => []

/-- The bytes of a table word: `n` bytes of `w`, the least significant (the opcode byte) first (R51). -/
def tableBytes (w : Nat) : Nat → List Byte
  | 0 => []
  | n + 1 => BitVec.ofNat 8 w :: tableBytes (w / 256) n

/-- The longest instruction has three bytes (R50). -/
def maxLength : Nat := 3

/-- The instruction the decoder reads from a word numbered as spec/opcode_table.json numbers it: bits 7:0 are
the opcode, bits 15:8 `byte1`, bits 23:16 `byte2` (R51); bits at and above `nbits` are 0. -/
def decodeTableWord (nbits w : Nat) : Option Instr :=
  match decode (tableBytes (w % 2 ^ nbits) maxLength) with
  | .ok (i, _) => some i
  | .error _ => none

end Sys2Proof
end

