-- ==== Sys2Proof/Machine/Fetch.lean ====
section
/-! DEFINITION. Fetching an instruction (spec/47_step_pc.md R171, R172, R182; spec/20_memory.md R43, R46): the opcode byte
at `PC`, then as many operand bytes as its format has, read from memory afresh in every step. -/

namespace Sys2Proof.Machine

/-- `n` bytes from address `a` on, the addresses modulo 65536 (R182; D6, log 9). -/
def bytesAt (s : State) : Nat → Addr → List Byte
  | 0, _ => []
  | n + 1, a => memRead a s :: bytesAt s n (a + 1)

/-- The opcode byte of the next instruction (R171). -/
def opcodeAtPC (s : State) : Byte := memRead s.pc s

/-- How many operand bytes the next step fetches: as many as the format of its opcode has, and none behind an
unassigned byte (R54, R191). -/
def operandBytesAtPC (s : State) : Nat :=
  match lookupOpcode (opcodeAtPC s) with
  | some r => r.format.operandCount
  | none => 0

/-- The bytes of the next instruction, opcode first (R46). -/
def instrBytesAtPC (s : State) : List Byte := bytesAt s (1 + operandBytesAtPC s) s.pc

/-- The next instruction, decoded from the fetched bytes (R171, R172). -/
def fetch (s : State) : Except DecodeError Instr :=
  match decode (instrBytesAtPC s) with
  | .ok (i, _) => .ok i
  | .error e => .error e

end Sys2Proof.Machine
end

