-- ==== Sys2Proof/Machine/HostAccess.lean ====
section
/-! DEFINITION. What the host may do between two steps (spec/20_memory.md R45; spec/70_reset_and_hazards.md R212, R213). These are not
steps of the machine: a run of `step` has no host action inside it (log 7). -/

namespace Sys2Proof.Machine

/-- The host's `read(addr)` (R45). -/
def hostRead (a : Addr) (s : State) : Byte := memRead a s

/-- The host's `write(addr, val)` (R45, R212). -/
def hostWrite (a : Addr) (v : Byte) (s : State) : State := memWrite a v s

/-- The loader: bytes written at ascending addresses, which wrap (R212). -/
def hostLoad : Addr → List Byte → State → State
  | _, [], s => s
  | a, v :: rest, s => hostLoad (a + 1) rest (hostWrite a v s)

/-- The registers as the host sees them between steps (R213). -/
def State.registers (s : State) : Registers :=
  { a := s.a, x := s.x, y := s.y, sp := s.sp, pc := s.pc, p := s.p }

/-- The host replaces the whole register state (R213; D12, log 2). Memory and the cycle total stay. -/
def hostSetRegisters (r : Registers) (s : State) : State :=
  { s with a := r.a, x := r.x, y := r.y, sp := r.sp, pc := r.pc, p := r.p }

end Sys2Proof.Machine
end

