-- ==== Sys2Proof/Machine/Step.lean ====
section
/-! DEFINITION. `step`, the only operation of the hardware (spec/47_step_pc.md R170), and the host's way to place one
instruction where it is fetched. -/

namespace Sys2Proof.Machine

/-- One step: fetch and decode the instruction at `PC` and execute it, or report IllegalOpcode (R170, R190).
A meaning moves `PC` and counts its cycles itself. The bytes fetched are never too few, so the one decode
error is the unassigned byte (`fetch_error_iff` in Laws/Fetch.lean). -/
def step (s : State) : Host.Outcome State Fault Refusal :=
  match fetch s with
  | .ok i => exec i s
  | .error _ => raiseIllegalOpcode (opcodeAtPC s)

/-- `s` with the word `w` (numbered as spec/opcode_table.json numbers it, the bits from `nbits` on zero) stored at
`PC`, `PC+1`, `PC+2`, where the next step fetches. It stands for the host's load (R212): log 2, log 19. -/
def State.withFetchWord (s : State) (nbits w : Nat) : State :=
  hostLoad s.pc (tableBytes (w % 2 ^ nbits) maxLength) s

end Sys2Proof.Machine
end

