-- ==== Sys2Proof/Machine/Accesses.lean ====
section
/-! DEFINITION. The memory accesses of one step, in order (spec/20_memory.md R36, R46; spec/40_addressing_modes.md R84, R85).
The list is an output beside `step`; statements tie it to what `step` reads and writes. The order among
independent reads is the spec's decision D15, and there are no dummy accesses (D14): log 13. -/

namespace Sys2Proof.Machine

/-- One access, of one byte (R36). -/
inductive Access where
  | rd (a : Addr)
  | wr (a : Addr)
  deriving DecidableEq, Repr

/-- The access is a write. -/
def Access.isWrite : Access → Bool
  | .rd _ => false
  | .wr _ => true

/-- The reads of `n` bytes from address `a` on. -/
def readsFrom : Nat → Addr → List Access
  | 0, _ => []
  | n + 1, a => .rd a :: readsFrom n (a + 1)

/-- The pointer reads of the two indirect forms, low byte first (R84). -/
def pointerReads (m : MemMode) (s : State) : List Access :=
  match m with
  | .izx z => [.rd (zext16 (z + s.x)), .rd (zext16 (z + s.x + 1))]
  | .izy z => [.rd (zext16 z), .rd (zext16 (z + 1))]
  | .zp _ | .zpx _ | .zpy _ | .abs _ | .abx _ | .aby _ => []

/-- The accesses after the instruction bytes: pointer bytes, the data byte, and for ASL on memory the write
(R36, R46, R85). -/
def operandAccesses (m : Mnemonic) (o : Operand) (s : State) : List Access :=
  match o with
  | .imp | .acc | .rel _ | .src (.imm _) => []
  | .src (.mem mode) =>
    let ea := (resolveMem mode s).ea
    pointerReads mode s ++ [.rd ea] ++ (if m = .ASL then [.wr ea] else [])

/-- Every memory access of the next step, in order; the opcode byte alone if it is unassigned (R46, R191). -/
def stepAccesses (s : State) : List Access :=
  match fetch s with
  | .ok i => readsFrom i.length s.pc ++ operandAccesses i.mnemonic i.operand s
  | .error _ => [.rd s.pc]

end Sys2Proof.Machine
end

