-- ==== Sys2Proof/Machine/Timing.lean ====
section
/-! DEFINITION. The cycle count a step returns (spec/47_step_pc.md R177; spec/70_reset_and_hazards.md R216 to R219), from the
decoder's record: base count plus adjustment. It is an output; no rule reads it. The meanings add the same
number to `CYC` on their own, and a statement says that the two agree (log 15). -/

namespace Sys2Proof.Machine

/-- The condition of a branch on `P` as it is before the instruction (R131 to R138; D22, log 12); `false` for
every other mnemonic. -/
def branchTaken (m : Mnemonic) (p : Byte) : Bool :=
  match m with
  | .BPL => !getFlag .N p
  | .BMI => getFlag .N p
  | .BVC => !getFlag .V p
  | .BVS => getFlag .V p
  | .BCC => !getFlag .C p
  | .BCS => getFlag .C p
  | .BNE => !getFlag .Z p
  | .BEQ => getFlag .Z p
  | .LDA | .LDX | .LDY | .ADC | .AND | .ASL | .CLC | .CLD | .CLI | .CLV | .SEC | .SED | .SEI | .NOP => false

/-- `extra` of R177 for a cycle rule, the resolver's output and whether a branch is taken. -/
def extraCycles (rule : CycleRule) (r : Resolved) (taken : Bool) : Nat :=
  match rule with
  | .fixed => 0
  | .ifCrossed => if r.crossed then 1 else 0
  | .branch => if taken then 1 + (if r.crossed then 1 else 0) else 0

/-- The cycles of the instruction with decoder record `row` (R170: `cyc = d.base_cycles + extra`). -/
def rowCycles (row : OpcodeRow) (i : Instr) (s : State) : Nat :=
  row.baseCycles + extraCycles row.cycleRule (resolve i.operand s) (branchTaken i.mnemonic s.p)

/-- The count the next step returns, or `none` if it reports IllegalOpcode, for which no cycles are counted
(R170, R191). -/
def stepCycles (s : State) : Option Nat :=
  match lookupOpcode (opcodeAtPC s), fetch s with
  | some row, .ok i => some (rowCycles row i s)
  | _, _ => none

end Sys2Proof.Machine
end

