-- ==== Sys2Proof/Safety.lean ====
section
/-! DEFINITION. What counts as a safe run and as the end of a run (spec/60_exceptions.md R191; spec/47_step_pc.md R181),
and the invariant of the states that start from reset (spec/10_state.md R17). -/

namespace Sys2Proof.Machine

/-- The next step reports `IllegalOpcode` (R190). -/
def reportsIllegal (s : State) : Prop := ∃ b, step s = .fault (.illegalOpcode b)

/-- The first `n` steps from `s` report no fault: the obligation R191 puts on a proof about a program. -/
def SafeFor (n : Nat) (s : State) : Prop := ∀ k, k ≤ n → ∃ t, core.run k s = .next t

/-- Steps until `stop` holds, for at most `fuel` steps. The hardware has no halt, so the end of a run is a
parameter (R181; D18, log 17). -/
def runUntil (stop : State → Bool) : Nat → State → Outcome
  | 0, s => .next s
  | fuel + 1, s =>
    if stop s then .next s
    else
      match step s with
      | .next t => runUntil stop fuel t
      | .fault f => .fault f
      | .refused r => .refused r

/-- The invariant of the states reached from reset: the memory list is canonical, and bit 5 of `P` is 1 (R17). -/
def State.inv (s : State) : Bool := s.mem.wf && getFlag .U s.p

end Sys2Proof.Machine
end

