-- ==== Sys2Proof/Certificates/Slice0/Obligations.lean ====
section
/-! DEFINITION. The statements for the provers. Each docstring names the rule of spec/ it states, or says that it rests on a
decision of the spec or on a choice of the model ("log <n>" is notes/assumptions/<n>.md).
The rules' lines "Encodings:" are the spec's general-knowledge passages G1 and G2, so no statement of what an
instruction does includes them: the encodings have statements of their own, at the beginning. -/

namespace Sys2Proof.Spec

open Sys2Proof.Machine

/-- Every flag of `P` outside `fs` is the same in `t` as in `s` (the eight flags are all of `P`). -/
def FlagsKept (fs : List Flag) (s t : State) : Prop := ∀ f, f ∉ fs → getFlag f t.p = getFlag f s.p

/-- Every byte of memory reads in `t` as in `s`. -/
def MemoryKept (s t : State) : Prop := ∀ b, t.mem.read b = s.mem.read b

/-- `Z` and `N` in `t` are the zero and sign of the byte `v` (R90, R91): `v = 0`, and bit 7 of `v`. -/
def ZeroSignOf (v : Byte) (t : State) : Prop :=
  (getFlag .Z t.p = true ↔ v = 0) ∧ (getFlag .N t.p = true ↔ v.toNat ≥ 128)

/-- The assigned low nibbles of each high nibble: the table under R57. -/
def assignedNibbles : List (Nat × List Nat) :=
  [(0x0, [0x6, 0xA, 0xE]), (0x1, [0x0, 0x6, 0x8, 0xE]), (0x2, [0x1, 0x5, 0x9, 0xD]),
   (0x3, [0x0, 0x1, 0x5, 0x8, 0x9, 0xD]), (0x4, []), (0x5, [0x0, 0x8]), (0x6, [0x1, 0x5, 0x9, 0xD]),
   (0x7, [0x0, 0x1, 0x5, 0x8, 0x9, 0xD]), (0x8, []), (0x9, [0x0]),
   (0xA, [0x0, 0x1, 0x2, 0x4, 0x5, 0x6, 0x9, 0xC, 0xD, 0xE]),
   (0xB, [0x0, 0x1, 0x4, 0x5, 0x6, 0x8, 0x9, 0xC, 0xD, 0xE]), (0xC, []), (0xD, [0x0, 0x8]), (0xE, [0xA]),
   (0xF, [0x0, 0x8])]

/-- The number of a list of bytes, the first the least significant (R51). -/
def tableWord : List Byte → Nat
  | [] => 0
  | b :: rest => b.toNat + 256 * tableWord rest

/-- The flags an instruction writes: the column "written by" of the table under R16, and the lines "Flags written" of
the instruction rules. -/
def flagsWritten : Mnemonic → List Flag
  | .LDA | .LDX | .LDY | .AND => [.Z, .N]
  | .ADC => [.C, .Z, .V, .N]
  | .ASL => [.C, .Z, .N]
  | .CLC | .SEC => [.C]
  | .CLD | .SED => [.D]
  | .CLI | .SEI => [.I]
  | .CLV => [.V]
  | .BCC | .BCS | .BEQ | .BMI | .BNE | .BPL | .BVC | .BVS | .NOP => []

/-- The eight branches, the flag each tests and the value at which it is taken: the table at the end of
45_branch.md. -/
def branchTable : List (Mnemonic × Flag × Bool) :=
  [(.BPL, .N, false), (.BMI, .N, true), (.BVC, .V, false), (.BVS, .V, true),
   (.BCC, .C, false), (.BCS, .C, true), (.BNE, .Z, false), (.BEQ, .Z, true)]

/-- The cycles of a reading instruction by format, without the page-cross penalty, and whether one applies: the
rows of LDA, LDX, LDY, ADC and AND in the table under R216. -/
def readingCycles : Format → Nat × Bool
  | .IMM => (2, false)
  | .ZP => (3, false)
  | .ZPX | .ZPY => (4, false)
  | .ABS => (4, false)
  | .ABX | .ABY => (4, true)
  | .IZX => (6, false)
  | .IZY => (5, true)
  | .IMP | .ACC | .REL => (0, false)

/-- The cycles of ASL by format: its row in the table under R216. -/
def aslCycles : Format → Nat
  | .ACC => 2
  | .ZP => 5
  | .ZPX => 6
  | .ABS => 6
  | .ABX => 7
  | .IMP | .IMM | .ZPY | .ABY | .IZX | .IZY | .REL => 0

end Sys2Proof.Spec

open Sys2Proof Sys2Proof.Machine Sys2Proof.Spec

/-! ### Encoding -/

/-- Words written out from the encodings of R60's table decode to the instruction they stand for. The byte values are
the spec's general knowledge (G1, D2; log 4). A check of a few words only. -/
def Obligations.SpecExampleBytesDecode : Prop :=
  decode [0x18] = .ok (.clc, []) ∧ decode [0x0A] = .ok (.aslAcc, []) ∧
  decode [0xA9, 0x10] = .ok (.ldaImm 0x10, []) ∧ decode [0xA5, 0x10] = .ok (.ldaZp 0x10, []) ∧
  decode [0xB5, 0x10] = .ok (.ldaZpx 0x10, []) ∧ decode [0xB6, 0x10] = .ok (.ldxZpy 0x10, []) ∧
  decode [0xAD, 0x34, 0x12] = .ok (.ldaAbs 0x1234, []) ∧ decode [0xBD, 0x34, 0x12] = .ok (.ldaAbx 0x1234, []) ∧
  decode [0xB9, 0x34, 0x12] = .ok (.ldaAby 0x1234, []) ∧ decode [0x90, 0xFD] = .ok (.bcc 0xFD, []) ∧
  decode [0xA1, 0x20] = .ok (.ldaIzx 0x20, []) ∧ decode [0xB1, 0x20] = .ok (.ldaIzy 0x20, [])

/-- Decoding the bytes of any instruction, with any bytes behind them, gives back that instruction and those bytes:
no operand bit is dropped, and the two forms of R56's table agree. -/
def Obligations.DecodeOfEncodeIsIdentity : Prop :=
  ∀ (i : Instr) (rest : List Byte), decode (encode i ++ rest) = .ok (i, rest)

/-- Whatever decodes to an instruction is that instruction's bytes: each list of bytes has one meaning, and each
instruction one encoding. -/
def Obligations.EncodeOfDecodeIsIdentity : Prop :=
  ∀ (bytes rest : List Byte) (i : Instr), decode bytes = .ok (i, rest) → bytes = encode i ++ rest

/-- Every row of the opcode table decodes, on any operand bytes, to an instruction of the row's mnemonic and format
that holds exactly those operand bytes. The rows' byte values and formats are the spec's general knowledge
(G1, G2; log 4). -/
def Obligations.TableRowsDecodeToTheirInstruction : Prop :=
  ∀ r ∈ opcodeTable, ∀ ops rest : List Byte, ops.length = r.format.operandCount →
    ∃ i, decode (r.byte :: (ops ++ rest)) = .ok (i, rest) ∧
      i.mnemonic = r.mnemonic ∧ i.format = r.format ∧ i.operand.bytes = ops

/-- The assigned bytes are those of the table under R57, 55 of them, and each of the other 201 is rejected by its
name whatever follows it. Which bytes are assigned is the spec's general knowledge (G1; log 4). -/
def Obligations.UnassignedBytesAreRejectedByName : Prop :=
  (∀ b : Byte, (lookupOpcode b).isSome = true ↔
    ∃ row ∈ assignedNibbles, row.1 = b.toNat / 16 ∧ b.toNat % 16 ∈ row.2) ∧
  ((List.range 256).filter fun n => (lookupOpcode (BitVec.ofNat 8 n)).isSome).length = 55 ∧
  ∀ (b : Byte) (rest : List Byte), lookupOpcode b = none → decode (b :: rest) = .error (.unassigned b)

/-- R54: the length is 1 + the operand byte count of the opcode's format, known from the opcode byte alone, and an
unassigned byte has none. -/
def Obligations.LengthFollowsFromTheOpcodeByte : Prop :=
  ∀ (b : Byte) (behind rest : List Byte) (i : Instr), decode (b :: behind) = .ok (i, rest) →
    ∃ r, lookupOpcode b = some r ∧ i.length = 1 + r.format.operandCount ∧
      1 + behind.length = i.length + rest.length

/-- R52: how the operand bytes become the fields, for whatever instruction a word decodes to. `imm8` is `byte1` as it is;
`zp8` is `byte1`, and as a 16-bit address its high byte is 0; `addr16` is `byte2 * 256 + byte1`; `rel8` is
`byte1`, extended as a signed two's-complement displacement of -128 to +127. -/
def Obligations.OperandFieldsAreAssembledFromBytes : Prop :=
  (∀ (b0 b1 b2 : Byte) (rest : List Byte) (i : Instr), decode [b0, b1, b2] = .ok (i, rest) →
    (∀ v, i.operand = .src (.imm v) → v = b1) ∧
    (∀ z m, i.operand = .src (.mem m) → m ∈ [.zp z, .zpx z, .zpy z, .izx z, .izy z] → z = b1) ∧
    (∀ a m, i.operand = .src (.mem m) → m ∈ [.abs a, .abx a, .aby a] → a.toNat = b2.toNat * 256 + b1.toNat) ∧
    (∀ d, i.operand = .rel d → d = b1)) ∧
  (∀ z : Byte, (zext16 z).toNat = z.toNat) ∧
  (∀ d : Byte, (sext16 d).toInt = d.toInt ∧ -128 ≤ d.toInt ∧ d.toInt ≤ 127)

/-- Placing the word of an instruction where the next step fetches makes that step run the instruction. `withFetchWord`
is the model's stand-in for the host's load (log 2, log 19), no rule of the spec. -/
def Obligations.PlacedWordIsRunByTheNextStep : Prop :=
  ∀ (i : Instr) (s : State),
    step (s.withFetchWord (8 * i.length) (tableWord (encode i))) =
      exec i (s.withFetchWord (8 * i.length) (tableWord (encode i)))

/-! ### Memory -/

/-- R47: after a write, the address reads the byte written, and every other address reads what it read before. -/
def Obligations.WriteThenReadRoundTrip : Prop :=
  ∀ (s : State) (a : Addr) (v : Byte),
    memRead a (memWrite a v s) = v ∧ ∀ b, b ≠ a → memRead b (memWrite a v s) = memRead b s

/-- Two memories in canonical form that read alike at every address are the same data. The canonical form is the
model's (log 1). -/
def Obligations.CanonicalMemoriesThatReadAlikeAreEqual : Prop :=
  ∀ m n : Memory, m.wf = true → n.wf = true → (∀ a, m.read a = n.read a) → m = n

/-- Every memory image is some memory in canonical form, so the parameter `MEM_INIT` of R9 (D11) ranges over every image,
and nothing about the contents is assumed. That the image is an argument is the spec's decision D11 (log 1). -/
def Obligations.EveryMemoryImageIsAvailable : Prop :=
  ∀ image : Addr → Byte, ∃ m : Memory, m.wf = true ∧ ∀ a, m.read a = image a

/-- R33 and R34: 16-bit quantities are little-endian; the second address wraps modulo 65536 for `Read16` and inside page
zero for `ReadZP16`. The wraps at 0xFFFF and, for Indirect,Y, at 0xFF are the spec's decisions D6 and D8
(log 9, log 10). -/
def Obligations.SixteenBitReadsAreLittleEndian : Prop :=
  (∀ (s : State) (a : Addr), (read16 a s).toNat =
    (memRead (BitVec.ofNat 16 ((a.toNat + 1) % 65536)) s).toNat * 256 + (memRead a s).toNat) ∧
  (∀ (s : State) (z : Byte), (readZP16 z s).toNat =
    (memRead (BitVec.ofNat 16 ((z.toNat + 1) % 256)) s).toNat * 256 + (memRead (BitVec.ofNat 16 z.toNat) s).toNat)

/-- R45 and R213: a host write between steps is an ordinary write and changes no register and no cycle total; replacing the
registers changes no byte of memory and no cycle total, and the registers then read as given. That the host acts
only between steps and may replace registers are the spec's decisions D12 and D16 (log 2, log 7). -/
def Obligations.HostAccessIsAnOrdinaryAccess : Prop :=
  (∀ (s : State) (a : Addr) (v : Byte),
    (hostWrite a v s).registers = s.registers ∧ (hostWrite a v s).cyc = s.cyc ∧
    hostRead a (hostWrite a v s) = v ∧ ∀ b, b ≠ a → hostRead b (hostWrite a v s) = hostRead b s) ∧
  (∀ (s : State) (r : Registers),
    (hostSetRegisters r s).registers = r ∧ (hostSetRegisters r s).cyc = s.cyc ∧
    ∀ b, hostRead b (hostSetRegisters r s) = hostRead b s)

/-! ### The addressing-mode resolver -/

/-- R71, R72: Implied and Accumulator have no operand bytes, no effective address, no page crossing, and read no memory
beyond the opcode; which instructions have them; and the accumulator form takes A and gives its result to A,
writing no memory. -/
def Obligations.ImpliedAndAccumulatorForms : Prop :=
  (∀ s, resolve .imp s = .none ∧ (resolve .imp s).crossed = false ∧
    resolve .acc s = .acc ∧ (resolve .acc s).crossed = false) ∧
  (∀ i : Instr, i.operand = .imp ↔ i.mnemonic ∈ [.CLC, .CLD, .CLI, .CLV, .SEC, .SED, .SEI, .NOP]) ∧
  (∀ i : Instr, i.operand = .acc ↔ i = .aslAcc) ∧
  (∀ i : Instr, i.operand = .imp ∨ i.operand = .acc →
    i.length = 1 ∧ ∀ s, operandAccesses i.mnemonic i.operand s = []) ∧
  (∀ s, ∃ t, exec .aslAcc s = .next t ∧ t.a.toNat = s.a.toNat * 2 % 256 ∧ MemoryKept s t)

/-- R74, R75, R76: the zero-page forms. The operand byte is the byte at PC + 1; the address is that byte, or that byte plus
the index modulo 256, with high byte 0; there is never a page crossing; no further memory is read to find the
address. Only LDX has the form indexed by Y. -/
def Obligations.ZeroPageFormsStayInPageZero : Prop :=
  ∀ (s : State) (z : Byte),
    resolve (.src (.mem (.zp z))) s = .address ⟨BitVec.ofNat 16 z.toNat, false⟩ ∧
    resolve (.src (.mem (.zpx z))) s = .address ⟨BitVec.ofNat 16 ((z.toNat + s.x.toNat) % 256), false⟩ ∧
    resolve (.src (.mem (.zpy z))) s = .address ⟨BitVec.ofNat 16 ((z.toNat + s.y.toNat) % 256), false⟩ ∧
    (∀ m ∈ [MemMode.zp z, .zpx z, .zpy z], pointerReads m s = [] ∧ page (resolveMem m s).ea = 0 ∧
      ∀ i, fetch s = .ok i → i.operand = .src (.mem m) → i.length = 2 ∧ z = memRead (s.pc + 1) s) ∧
    ∀ i : Instr, i.operand = .src (.mem (.zpy z)) ↔ i = .ldxZpy z

/-- R73, R77, R78, R79, R85: the immediate operand is its byte; the absolute address is `addr16`; the indexed address is
`addr16` plus the index modulo 65536, and `crossed` is the carry out of the low byte; a reading instruction reads
the byte at that address. The wrap of the high byte is the spec's decision D7 (log 9). -/
def Obligations.ImmediateAndAbsoluteForms : Prop :=
  ∀ (s : State) (v : Byte) (a : Addr),
    (resolve (.src (.imm v)) s = .value v ∧ sourceValue (.imm v) s = v) ∧
    resolve (.src (.mem (.abs a))) s = .address ⟨a, false⟩ ∧
    resolve (.src (.mem (.abx a))) s =
      .address ⟨BitVec.ofNat 16 ((a.toNat + s.x.toNat) % 65536), decide (a.toNat % 256 + s.x.toNat > 0xFF)⟩ ∧
    resolve (.src (.mem (.aby a))) s =
      .address ⟨BitVec.ofNat 16 ((a.toNat + s.y.toNat) % 65536), decide (a.toNat % 256 + s.y.toNat > 0xFF)⟩ ∧
    ∀ m, sourceValue (.mem m) s = s.mem.read (resolveMem m s).ea

/-- R81: Indirect,X. The operand byte is the byte at PC + 1; the pointer is that byte plus X modulo 256; both address bytes
come from page zero, the high one from the next byte with 8-bit wraparound; there is never a page crossing. LDA,
ADC and AND have the form. -/
def Obligations.IndirectXTakesItsPointerFromPageZero : Prop :=
  ∀ (s : State) (z : Byte) (p : Nat), p = (z.toNat + s.x.toNat) % 256 →
    (∃ ea : Addr, resolve (.src (.mem (.izx z))) s = .address ⟨ea, false⟩ ∧
      ea.toNat = (s.mem.read (BitVec.ofNat 16 ((p + 1) % 256))).toNat * 256 + (s.mem.read (BitVec.ofNat 16 p)).toNat) ∧
    pointerReads (.izx z) s = [.rd (BitVec.ofNat 16 p), .rd (BitVec.ofNat 16 ((p + 1) % 256))] ∧
    (∀ i, fetch s = .ok i → i.operand = .src (.mem (.izx z)) → i.length = 2 ∧ z = memRead (s.pc + 1) s) ∧
    ∀ i : Instr, i.operand = .src (.mem (.izx z)) ↔ i ∈ [.ldaIzx z, .adcIzx z, .andIzx z]

/-- R82: Indirect,Y. The base comes little-endian from the zero-page pointer, Y is added modulo 65536, and `crossed` is the
carry out of the low byte. The pointer's wrap and the wrap of the sum are the spec's decisions D8 and D7
(log 10, log 9). -/
def Obligations.IndirectYAddsYToThePointedBase : Prop :=
  ∀ (s : State) (z : Byte) (lo hi : Nat), lo = (s.mem.read (BitVec.ofNat 16 z.toNat)).toNat →
    hi = (s.mem.read (BitVec.ofNat 16 ((z.toNat + 1) % 256))).toNat →
    resolve (.src (.mem (.izy z))) s =
      .address ⟨BitVec.ofNat 16 ((hi * 256 + lo + s.y.toNat) % 65536), decide (lo + s.y.toNat > 0xFF)⟩ ∧
    pointerReads (.izy z) s =
      [.rd (BitVec.ofNat 16 z.toNat), .rd (BitVec.ofNat 16 ((z.toNat + 1) % 256))]

/-- R83: for ABX, ABY and IZY, `crossed` is true exactly when the effective address lies on another page than the unindexed
base (the equivalence is the spec's inference). -/
def Obligations.CrossedMeansThePageChanged : Prop :=
  ∀ (s : State) (a : Addr) (z : Byte),
    ((resolveMem (.abx a) s).crossed = true ↔ page (resolveMem (.abx a) s).ea ≠ page a) ∧
    ((resolveMem (.aby a) s).crossed = true ↔ page (resolveMem (.aby a) s).ea ≠ page a) ∧
    ((resolveMem (.izy z) s).crossed = true ↔ page (resolveMem (.izy z) s).ea ≠ page (readZP16 z s))

/-- R80: the branch target is the address of the instruction after the branch plus the signed displacement, modulo 65536,
and `crossed` compares their pages. The base and the page test are the spec's decisions D4 and D5 (log 11). -/
def Obligations.BranchTargetIsRelativeToTheNextInstruction : Prop :=
  ∀ (s : State) (d : Byte),
    ∃ e, resolve (.rel d) s = .target e ∧
      (e.ea.toNat : Int) = ((s.pc.toNat : Int) + 2 + d.toInt) % 65536 ∧
      (e.crossed = true ↔ e.ea.toNat / 256 ≠ (s.pc.toNat + 2) % 65536 / 256)

/-! ### The flag rules -/

/-- R16, R27: the place of each flag in P; writing one flag gives it the value and leaves the seven others. -/
def Obligations.FlagsHaveTheirBitOfP : Prop :=
  (∀ p : Byte, getFlag .C p = p.getLsbD 0 ∧ getFlag .Z p = p.getLsbD 1 ∧ getFlag .I p = p.getLsbD 2 ∧
    getFlag .D p = p.getLsbD 3 ∧ getFlag .B p = p.getLsbD 4 ∧ getFlag .U p = p.getLsbD 5 ∧
    getFlag .V p = p.getLsbD 6 ∧ getFlag .N p = p.getLsbD 7) ∧
  ∀ (f g : Flag) (v : Bool) (p : Byte), getFlag g (setFlag f v p) = if g = f then v else getFlag g p

/-- R90, R91, R92, R93: the four flag rules; an instruction that sets Zero and Sign from a byte gives the flags these
values; the unmasked intermediates of ADC and ASL that the carry rule is applied to. -/
def Obligations.FourFlagRules : Prop :=
  (∀ r : Nat, zeroOf r = true ↔ r % 256 = 0) ∧
  (∀ r : Nat, signOf r = true ↔ r % 256 ≥ 128) ∧
  (∀ t : Nat, carryOf t = true ↔ t > 0xFF) ∧
  (∀ a m r : Byte, overflowOf a m r = true ↔
    a.getLsbD 7 = m.getLsbD 7 ∧ r.getLsbD 7 ≠ a.getLsbD 7) ∧
  (∀ r p : Byte, getFlag .Z (setZN r p) = zeroOf r.toNat ∧ getFlag .N (setZN r p) = signOf r.toNat) ∧
  (∀ (a m : Byte) (c : Bool), addIntermediate a m c = a.toNat + m.toNat + c.toNat ∧ addIntermediate a m c ≤ 511) ∧
  (∀ v : Byte, shiftIntermediate v = v.toNat * 2 ∧ shiftIntermediate v ≤ 510)

/-- Two inferences of the spec. After R93: the overflow test on the truncated sum is 1 exactly when the signed sum with
the carry-in lies outside -128..127, and exactly when the carries into and out of bit 7 differ. At the end of R92:
the carry rule on a shift's intermediate result gives bit 7 of the value shifted. -/
def Obligations.OverflowIsSignedOverflow : Prop :=
  (∀ (a m : Byte) (c : Bool),
    (overflowOf a m (truncate8 (addIntermediate a m c)) = true ↔
      ¬(-128 ≤ a.toInt + m.toInt + c.toNat ∧ a.toInt + m.toInt + c.toNat ≤ 127)) ∧
    (overflowOf a m (truncate8 (addIntermediate a m c)) = true ↔
      decide (a.toNat % 128 + m.toNat % 128 + c.toNat ≥ 128) ≠ carryOf (addIntermediate a m c))) ∧
  (∀ v : Byte, carryOf (shiftIntermediate v) = v.getLsbD 7)

/-! ### The instructions -/

/-- R100: LDA, in each of its eight forms (ldaImm, ldaZp, ldaZpx, ldaAbs, ldaAbx, ldaAby, ldaIzx, ldaIzy), completes from
every state; A is the operand, Z and N follow from it, and nothing else changes but PC and the cycle total. -/
def Obligations.LdaLoadsTheOperand : Prop :=
  ∀ (i : Instr) (s : State), i.mnemonic = .LDA →
    ∃ x t, i.operand = .src x ∧ exec i s = .next t ∧
      t.a = sourceValue x s ∧ ZeroSignOf (sourceValue x s) t ∧
      FlagsKept [.Z, .N] s t ∧ t.x = s.x ∧ t.y = s.y ∧ t.sp = s.sp ∧ MemoryKept s t

/-- R101: LDX, in each of its five forms (ldxImm, ldxZp, ldxZpy, ldxAbs, ldxAby), completes from every state; X is the
operand, read with the Y of before; Z and N follow from it, and nothing else changes but PC and the cycle total. -/
def Obligations.LdxLoadsTheOperand : Prop :=
  ∀ (i : Instr) (s : State), i.mnemonic = .LDX →
    ∃ x t, i.operand = .src x ∧ exec i s = .next t ∧
      t.x = sourceValue x s ∧ ZeroSignOf (sourceValue x s) t ∧ sourceValue x s = sourceValue x { s with x := 0 } ∧
      FlagsKept [.Z, .N] s t ∧ t.a = s.a ∧ t.y = s.y ∧ t.sp = s.sp ∧ MemoryKept s t

/-- R102: LDY, in each of its five forms (ldyImm, ldyZp, ldyZpx, ldyAbs, ldyAbx), completes from every state; Y is the
operand, found without Y; Z and N follow from it, and nothing else changes but PC and the cycle total. -/
def Obligations.LdyLoadsTheOperand : Prop :=
  ∀ (i : Instr) (s : State), i.mnemonic = .LDY →
    ∃ x t, i.operand = .src x ∧ exec i s = .next t ∧
      t.y = sourceValue x s ∧ ZeroSignOf (sourceValue x s) t ∧ sourceValue x s = sourceValue x { s with y := 0 } ∧
      FlagsKept [.Z, .N] s t ∧ t.a = s.a ∧ t.x = s.x ∧ t.sp = s.sp ∧ MemoryKept s t

/-- R110: ADC, in each of its eight forms (adcImm, adcZp, adcZpx, adcAbs, adcAbx, adcAby, adcIzx, adcIzy), completes from
every state. With `T = A + M + C` from before: A is `T mod 256`, C is `T > 0xFF`, Z and N follow from A, V is the
two-operand sign test, and nothing else changes but PC and the cycle total. -/
def Obligations.AdcAddsWithCarry : Prop :=
  ∀ (i : Instr) (s : State), i.mnemonic = .ADC →
    ∃ x t, i.operand = .src x ∧ exec i s = .next t ∧
      t.a.toNat = (s.a.toNat + (sourceValue x s).toNat + (getFlag .C s.p).toNat) % 256 ∧
      (getFlag .C t.p = true ↔ s.a.toNat + (sourceValue x s).toNat + (getFlag .C s.p).toNat > 0xFF) ∧
      ZeroSignOf t.a t ∧
      (getFlag .V t.p = true ↔ s.a.msb = (sourceValue x s).msb ∧ t.a.msb ≠ s.a.msb) ∧
      FlagsKept [.C, .Z, .V, .N] s t ∧ t.x = s.x ∧ t.y = s.y ∧ t.sp = s.sp ∧ MemoryKept s t

/-- R112: the decimal flag has no effect on ADC or on anything else. Two states that differ in D alone run any instruction
to states that differ in D at most. -/
def Obligations.DecimalFlagHasNoEffect : Prop :=
  ∀ (i : Instr) (s : State) (d : Bool), ∃ t u,
    exec i s = .next t ∧ exec i { s with p := setFlag .D d s.p } = .next u ∧
      u.a = t.a ∧ u.x = t.x ∧ u.y = t.y ∧ u.sp = t.sp ∧ u.pc = t.pc ∧ u.cyc = t.cyc ∧
      FlagsKept [.D] t u ∧ MemoryKept t u

/-- R111: AND, in each of its eight forms (andImm, andZp, andZpx, andAbs, andAbx, andAby, andIzx, andIzy), completes from
every state; A is A and the operand bit by bit, Z and N follow from it, and nothing else changes but PC and the
cycle total. -/
def Obligations.AndIsBitwise : Prop :=
  ∀ (i : Instr) (s : State), i.mnemonic = .AND →
    ∃ x t, i.operand = .src x ∧ exec i s = .next t ∧
      (∀ k, t.a.getLsbD k = (s.a.getLsbD k && (sourceValue x s).getLsbD k)) ∧ ZeroSignOf t.a t ∧
      FlagsKept [.Z, .N] s t ∧ t.x = s.x ∧ t.y = s.y ∧ t.sp = s.sp ∧ MemoryKept s t

/-- R120: ASL A (aslAcc) completes from every state; A is doubled modulo 256, so its bit 0 is 0 and the old carry is not
shifted in; C is the old bit 7; Z and N follow from the result; memory is neither read beyond the opcode nor
written; nothing else changes but PC and the cycle total. -/
def Obligations.AslAccumulatorShiftsA : Prop :=
  ∀ s : State, ∃ t, exec .aslAcc s = .next t ∧
    t.a.toNat = s.a.toNat * 2 % 256 ∧ t.a.getLsbD 0 = false ∧ getFlag .C t.p = s.a.getLsbD 7 ∧ ZeroSignOf t.a t ∧
    FlagsKept [.C, .Z, .N] s t ∧ t.x = s.x ∧ t.y = s.y ∧ t.sp = s.sp ∧ MemoryKept s t ∧
    operandAccesses Instr.aslAcc.mnemonic Instr.aslAcc.operand s = []

/-- R121: ASL on memory, in each of its four forms (aslZp, aslZpx, aslAbs, aslAbx), completes from every
state. The byte at the effective address is doubled modulo 256 and written back there; every other byte is
unchanged; beyond the instruction bytes the cell is read once and then written once, and nothing else is accessed;
C is the old bit 7, Z and N follow from the result, not from A; nothing else changes but PC and the cycle total. That
the old value is not written back first, and nothing else is accessed, is the spec's decision D14 (log 13). -/
def Obligations.AslMemoryShiftsTheByteInPlace : Prop :=
  ∀ (i : Instr) (s : State), i.mnemonic = .ASL → i ≠ .aslAcc →
    ∃ m t, i.operand = .src (.mem m) ∧ exec i s = .next t ∧
      (t.mem.read (resolveMem m s).ea).toNat = (s.mem.read (resolveMem m s).ea).toNat * 2 % 256 ∧
      (∀ b, b ≠ (resolveMem m s).ea → t.mem.read b = s.mem.read b) ∧
      operandAccesses i.mnemonic i.operand s = [.rd (resolveMem m s).ea, .wr (resolveMem m s).ea] ∧
      getFlag .C t.p = (s.mem.read (resolveMem m s).ea).getLsbD 7 ∧
      ZeroSignOf (t.mem.read (resolveMem m s).ea) t ∧
      FlagsKept [.C, .Z, .N] s t ∧ t.a = s.a ∧ t.x = s.x ∧ t.y = s.y ∧ t.sp = s.sp

/-- R130 to R138, R218: the eight branches (bcc, bcs, beq, bmi, bne, bpl, bvc, bvs) complete from every state. Taken exactly
when the flag has the value of the table in 45_branch.md: PC is then the next instruction plus the signed
displacement modulo 65536, else the next instruction; 2 cycles, 3 taken, 4 taken to another page; nothing else
changes. Base, page test and conditions are the spec's decisions D4, D5, D22 (log 11, log 12). -/
def Obligations.BranchesFollowTheirFlag : Prop :=
  ∀ (i : Instr) (s : State) (f : Flag) (v : Bool), (i.mnemonic, f, v) ∈ branchTable →
    ∃ d t, i.operand = .rel d ∧ exec i s = .next t ∧
      (getFlag f s.p = v →
        (t.pc.toNat : Int) = ((s.pc.toNat : Int) + 2 + d.toInt) % 65536 ∧
        t.cyc = s.cyc + (if t.pc.toNat / 256 = (s.pc.toNat + 2) % 65536 / 256 then 3 else 4)) ∧
      (getFlag f s.p ≠ v → t.pc.toNat = (s.pc.toNat + 2) % 65536 ∧ t.cyc = s.cyc + 2) ∧
      t.p = s.p ∧ t.a = s.a ∧ t.x = s.x ∧ t.y = s.y ∧ t.sp = s.sp ∧ MemoryKept s t

/-- R150 to R156: the seven flag instructions (clc, cld, cli, clv, sec, sed, sei) complete from every state, write the one
flag they name, and change nothing else but PC and the cycle total. Which flag a mnemonic names is the spec's
decision D22 (log 12). -/
def Obligations.FlagInstructionsWriteOneFlag : Prop :=
  ∀ (i : Instr) (f : Flag) (v : Bool) (s : State),
    (i, f, v) ∈ [(Instr.clc, Flag.C, false), (.cld, .D, false), (.cli, .I, false), (.clv, .V, false),
      (.sec, .C, true), (.sed, .D, true), (.sei, .I, true)] →
    ∃ t, exec i s = .next t ∧ getFlag f t.p = v ∧ FlagsKept [f] s t ∧
      t.a = s.a ∧ t.x = s.x ∧ t.y = s.y ∧ t.sp = s.sp ∧ MemoryKept s t

/-- R157: NOP (nop) completes from every state and changes no register other than PC, no flag and no memory byte; it
reads no memory beyond the opcode. (Its cycles are in CyclesFollowTheTable.) -/
def Obligations.NopChangesOnlyPcAndCycles : Prop :=
  ∀ s : State, ∃ t, exec .nop s = .next t ∧
    t.p = s.p ∧ t.a = s.a ∧ t.x = s.x ∧ t.y = s.y ∧ t.sp = s.sp ∧ MemoryKept s t ∧
    operandAccesses Instr.nop.mnemonic Instr.nop.operand s = []

/-- R158: two consecutive copies of a flag instruction leave A, X, Y, SP, P and memory as one copy does. For the three
that set a flag this is the spec's inference. -/
def Obligations.FlagInstructionsAreIdempotent : Prop :=
  ∀ (i : Instr) (s : State), i ∈ [Instr.clc, .cld, .cli, .clv, .sec, .sed, .sei] →
    ∃ t u, exec i s = .next t ∧ exec i t = .next u ∧
      u.a = t.a ∧ u.x = t.x ∧ u.y = t.y ∧ u.sp = t.sp ∧ u.p = t.p ∧ MemoryKept t u

/-! ### Rules about every instruction -/

/-- R176, R182: every instruction that is no branch completes from every state and leaves PC at its own address plus its
length, modulo 65536. The wrap at the top of the address space is the spec's decision D6 (log 9). -/
def Obligations.PcAdvancesByTheLength : Prop :=
  ∀ (i : Instr) (s : State), i.mnemonic ∉ branchTable.map Prod.fst →
    ∃ t, exec i s = .next t ∧ t.pc.toNat = (s.pc.toNat + i.length) % 65536

/-- R21, R94 and the table under R16: an instruction writes only the flags its own rule names, so every other bit of `P`
keeps its value; B and bit 5 are named by no rule. That every instruction completes is the spec's inference in R193,
and which flag a flag instruction names is its decision D22 (log 12). -/
def Obligations.OnlyNamedFlagsAreWritten : Prop :=
  ∀ (i : Instr) (s : State), ∃ t, exec i s = .next t ∧ FlagsKept (flagsWritten i.mnemonic) s t ∧
    Flag.B ∉ flagsWritten i.mnemonic ∧ Flag.U ∉ flagsWritten i.mnemonic

/-- R177, R216, R217, R218: what every instruction adds to the cycle total, by mnemonic and format. The numbers other than
the branches' and the penalties are the spec's general knowledge (G3; log 5). The branches' are in
BranchesFollowTheirFlag. -/
def Obligations.CyclesFollowTheTable : Prop :=
  ∀ (i : Instr) (s t : State), exec i s = .next t →
    (∀ x, i.mnemonic ∈ [.LDA, .LDX, .LDY, .ADC, .AND] → i.operand = .src x →
      t.cyc = s.cyc + BitVec.ofNat 32 ((readingCycles i.format).1 +
        (if (readingCycles i.format).2 = true ∧ (resolve i.operand s).crossed = true then 1 else 0))) ∧
    (i.mnemonic = .ASL → t.cyc = s.cyc + BitVec.ofNat 32 (aslCycles i.format)) ∧
    (i.operand = .imp → t.cyc = s.cyc + 2)

/-- R170, R177, R191, R219: the count a step returns is the decoder record's base plus its adjustment; it is what the step adds to
CYC modulo 2^32, and it lies between 2 and 7; at an unassigned byte no cycles are counted. The numbers are the spec's general knowledge (G3), the wrap its
decision D13 (log 5, log 3), the count at an unassigned byte D9 (log 6); the count beside the step is the model's
form of the output (log 15). -/
def Obligations.ReturnedCyclesAreAddedToTheTotal : Prop :=
  (∀ s t : State, step s = .next t →
    ∃ n, stepCycles s = some n ∧ 2 ≤ n ∧ n ≤ 7 ∧ t.cyc.toNat = (s.cyc.toNat + n) % 2 ^ 32) ∧
  (∀ s : State, lookupOpcode (memRead s.pc s) = none → stepCycles s = none)

/-- R219: nothing depends on timing. Two states that differ in the cycle total alone stop for the same reason, or step to
states that differ in the cycle total alone. -/
def Obligations.NothingReadsTheCycleTotal : Prop :=
  ∀ (s : State) (c : CycleCount),
    (∀ f, step s = .fault f → step { s with cyc := c } = .fault f) ∧
    (∀ t, step s = .next t → ∃ c', step { s with cyc := c } = .next { t with cyc := c' })

/-- R14: no instruction reads or writes SP, and no step changes it; it is 0x00 after reset. -/
def Obligations.StackPointerIsInert : Prop :=
  State.reset.sp = 0x00 ∧ ∀ (s : State) (v : Byte),
    (∀ f, step s = .fault f → step { s with sp := v } = .fault f) ∧
    (∀ t, step s = .next t → t.sp = s.sp ∧ step { s with sp := v } = .next { t with sp := v })

/-! ### The step -/

/-- A step runs the decoded instruction: where the bytes at PC decode to an instruction, the step is that instruction's
meaning at that state (which moves PC and counts the cycles itself). -/
def Obligations.StepRunsTheDecodedInstruction : Prop :=
  ∀ (s : State) (i : Instr) (rest : List Byte),
    decode [memRead s.pc s, memRead (s.pc + 1) s, memRead (s.pc + 2) s] = .ok (i, rest) → step s = exec i s

/-- R190: a step reports `IllegalOpcode(b)` exactly when the byte `b` at PC is unassigned, and no step stops in any other
way. -/
def Obligations.IllegalOpcodeIsTheOnlyStop : Prop :=
  ∀ s : State,
    (lookupOpcode (memRead s.pc s) = none ↔ step s = .fault (.illegalOpcode (memRead s.pc s))) ∧
    (∀ f, step s = .fault f → f = .illegalOpcode (memRead s.pc s)) ∧
    (∀ r, step s ≠ .refused r)

/-- R180: a step is total, and what a successful step can change: PC, at most one of A, X and Y, flags among C, Z, I, D, V
and N, at most the one memory byte that ASL on memory writes, and the cycle total; never SP, B or bit 5. -/
def Obligations.StepIsTotalAndChangesLittle : Prop :=
  ∀ s : State, step s = .fault (.illegalOpcode (memRead s.pc s)) ∨
    ∃ t i, step s = .next t ∧ fetch s = .ok i ∧
      ((t.x = s.x ∧ t.y = s.y) ∨ (t.a = s.a ∧ t.y = s.y) ∨ (t.a = s.a ∧ t.x = s.x)) ∧
      FlagsKept [.C, .Z, .I, .D, .V, .N] s t ∧ t.sp = s.sp ∧
      (∀ m, i.mnemonic = .ASL → i.operand = .src (.mem m) →
        ∀ b, b ≠ (resolveMem m s).ea → t.mem.read b = s.mem.read b) ∧
      (i.mnemonic ≠ .ASL ∨ i.operand = .acc → MemoryKept s t)

/-- R175: only ASL in its memory form writes memory, at the effective address the resolver produced, once. In terms of the
bytes that change, and in terms of the writes on a step's access list. -/
def Obligations.OnlyAslWritesMemory : Prop :=
  (∀ (s t : State) (b : Addr), step s = .next t → t.mem.read b ≠ s.mem.read b →
    ∃ i m, fetch s = .ok i ∧ i.mnemonic = .ASL ∧ i.operand = .src (.mem m) ∧ b = (resolveMem m s).ea) ∧
  (∀ (s : State) (a : Addr), Access.wr a ∈ stepAccesses s →
    ∃ i m, fetch s = .ok i ∧ i.mnemonic = .ASL ∧ i.operand = .src (.mem m) ∧ a = (resolveMem m s).ea ∧
      (stepAccesses s).filter Access.isWrite = [.wr a])

/-- R84, R46, R191: the accesses of a step in order: the opcode byte, the operand bytes, the pointer bytes, the data byte,
the write; and how many there are by format. The absolute and zero-page forms have no pointer bytes, the two
indirect forms have two. At an unassigned byte the opcode byte alone is read. The order among independent reads and
the absence of dummy accesses are the spec's decisions D15 and D14 (log 13), the reads at an unassigned byte D9
(log 6). -/
def Obligations.StepAccessesByFormat : Prop :=
  ∀ s : State,
    (lookupOpcode (memRead s.pc s) = none → stepAccesses s = [.rd s.pc]) ∧
    (∀ i : Instr, fetch s = .ok i →
      (i.format.operandCount = 0 → stepAccesses s = [.rd s.pc]) ∧
      (i.format = .IMM ∨ i.format = .REL → stepAccesses s = [.rd s.pc, .rd (s.pc + 1)]) ∧
      (∀ m, i.operand = .src (.mem m) →
        stepAccesses s =
          [.rd s.pc, .rd (s.pc + 1)] ++ (if i.length = 3 then [.rd (s.pc + 2)] else []) ++ pointerReads m s ++
          [.rd (resolveMem m s).ea] ++ (if i.mnemonic = .ASL then [.wr (resolveMem m s).ea] else []))) ∧
    (∀ a : Addr, pointerReads (.abs a) s = [] ∧ pointerReads (.abx a) s = [] ∧ pointerReads (.aby a) s = []) ∧
    (∀ z : Byte, pointerReads (.zp z) s = [] ∧ pointerReads (.zpx z) s = [] ∧ pointerReads (.zpy z) s = [] ∧
      (pointerReads (.izx z) s).length = 2 ∧ (pointerReads (.izy z) s).length = 2)

/-- R46, R36: no other access is made. If two states agree on the registers and on every byte that the first one's step
reads by its access list, their steps end alike: the same fault, or next states with the same registers, the same
cycles added and the same byte at every address written; and a successful step changes no byte outside the
addresses listed as written. That there are no dummy accesses is the spec's decision D14 (log 13). -/
def Obligations.StepDependsOnlyOnItsListedReads : Prop :=
  ∀ (s : State) (image : Memory) (c : CycleCount),
    (∀ a, Access.rd a ∈ stepAccesses s → image.read a = s.mem.read a) →
    (∀ f, step s = .fault f → step { s with mem := image, cyc := c } = .fault f) ∧
    (∀ t, step s = .next t → ∃ u, step { s with mem := image, cyc := c } = .next u ∧
      u.registers = t.registers ∧ u.cyc - c = t.cyc - s.cyc ∧
      (∀ a, Access.wr a ∈ stepAccesses s → u.mem.read a = t.mem.read a) ∧
      (∀ a, Access.wr a ∉ stepAccesses s → t.mem.read a = s.mem.read a ∧ u.mem.read a = image.read a))

/-! ### Reset and runs -/

/-- R25: the values after reset. The registers are zero except bit 5 of P. (CYC and MEM after reset are no values of the
source, and this statement says nothing about them.) -/
def Obligations.ResetValues : Prop :=
  State.reset.a = 0x00 ∧ State.reset.x = 0x00 ∧ State.reset.y = 0x00 ∧ State.reset.sp = 0x00 ∧
  State.reset.pc = 0x0000 ∧ State.reset.p = 0x20 ∧
  getFlag .U State.reset.p = true ∧ ∀ f, f ≠ .U → getFlag f State.reset.p = false

/-- R9, R211, R212, R213: stepping begins with the registers and the image the host chose, whatever they are (REG_INIT
and MEM_INIT), and CYC counts from 0; the first step takes its opcode from the PC chosen, which is 0x0000 for the
default, the reset registers. R211 is the spec's inference; the parameters are its decisions D12 and D11 (log 2,
log 1), CYC's start D13 (log 3). -/
def Obligations.FirstFetchAfterResetIsAtZero : Prop :=
  (∀ (r : Registers) (image : Memory),
    (State.launch r image).registers = r ∧ (∀ a, memRead a (State.launch r image) = image.read a) ∧
    (State.launch r image).cyc = 0 ∧ opcodeAtPC (State.launch r image) = image.read r.pc ∧
    (lookupOpcode (image.read r.pc) = none →
      step (State.launch r image) = .fault (.illegalOpcode (image.read r.pc)))) ∧
  (∀ image : Memory, opcodeAtPC (State.launch Registers.reset image) = image.read 0x0000)

/-- The reset state meets the invariant that StepKeepsTheInvariant carries on (R17; the canonical form is the model's,
log 1). -/
def Obligations.ResetMeetsTheInvariant : Prop := State.reset.inv = true

/-- R17: bit 5 of P stays 1 in every step from a state that has it, and the memory list stays canonical (the model's own
part, log 1), whether the state is reached from reset or not. -/
def Obligations.StepKeepsTheInvariant : Prop :=
  ∀ s t : State, s.inv = true → step s = .next t → t.inv = true

/-- R14, R17, R18, over whole runs from any state: after any number of steps SP, B and bit 5 of P are what they were, and a
canonical memory list is still canonical (log 1). Runs have no host action inside (log 7). -/
def Obligations.RunsKeepSpBreakAndBitFive : Prop :=
  ∀ (n : Nat) (s t : State), core.run n s = .next t →
    t.sp = s.sp ∧ getFlag .B t.p = getFlag .B s.p ∧ getFlag .U t.p = getFlag .U s.p ∧
      (s.mem.wf = true → t.mem.wf = true)

/-- A run is safe for `n + 1` steps exactly when the byte at PC is assigned and the run from the next state is safe for `n`
steps: R191's obligation on a proof about a program, one step at a time. The form of the definition is the
model's (log 6). -/
def Obligations.SafeRunsUnfoldStepByStep : Prop :=
  ∀ (n : Nat) (s : State), SafeFor (n + 1) s ↔ ∃ t, step s = .next t ∧
    lookupOpcode (memRead s.pc s) ≠ none ∧ SafeFor n t
end

