-- ==== Sys2Proof/Laws/Bits.lean ====
section
/-! SUPPORT. The numbers behind the 8- and 16-bit helpers. -/

namespace Sys2Proof

theorem zext16_toNat (v : Byte) : (zext16 v).toNat = v.toNat := by
  simp [zext16]
  omega

/-- `{hi, lo}` is `hi*256 + lo` (00_scope.md section 6). -/
theorem word16_toNat (hi lo : Byte) : (word16 hi lo).toNat = hi.toNat * 256 + lo.toNat := by
  refine (BitVec.toNat_append hi lo).trans ?_
  rw [← Nat.shiftLeft_add_eq_or_of_lt (by omega), Nat.shiftLeft_eq]

theorem lowByte_toNat (a : Addr) : (lowByte a).toNat = a.toNat % 256 := by
  simp [lowByte, BitVec.extractLsb'_toNat]

theorem highByte_toNat (a : Addr) : (highByte a).toNat = a.toNat / 256 := by
  simp [highByte, BitVec.extractLsb'_toNat, Nat.shiftRight_eq_div_pow]
  omega

theorem page_toNat (a : Addr) : (page a).toNat = a.toNat / 256 := highByte_toNat a

theorem word16_high_low (a : Addr) : word16 (highByte a) (lowByte a) = a := by
  apply BitVec.eq_of_toNat_eq
  rw [word16_toNat, highByte_toNat, lowByte_toNat]
  omega

theorem lowByte_word16 (hi lo : Byte) : lowByte (word16 hi lo) = lo := by
  apply BitVec.eq_of_toNat_eq
  rw [lowByte_toNat, word16_toNat]
  omega

theorem highByte_word16 (hi lo : Byte) : highByte (word16 hi lo) = hi := by
  apply BitVec.eq_of_toNat_eq
  rw [highByte_toNat, word16_toNat]
  omega

/-- `sext_16(v)` has the two's-complement value of `v` (R52). -/
theorem sext16_eq_signExtend (v : Byte) : sext16 v = v.signExtend 16 := by
  apply BitVec.eq_of_toNat_eq
  rw [BitVec.toNat_signExtend]
  unfold sext16 zext16
  have h := v.isLt
  cases hv : v.msb
  · simp [BitVec.msb_eq_decide] at hv ⊢
  · simp [BitVec.msb_eq_decide] at hv ⊢
    omega

end Sys2Proof
end

