-- ==== Sys2Proof/Laws/PerInstr.lean ====
section
/-! SUPPORT. Facts about every instruction as syntax, one lemma per constructor (LAWS.json, "per_instruction"). -/

namespace Sys2Proof.Laws

/-- The checks of WellFormed.lean hold: the mnemonic has the format, and there are as many operand bytes as the
format has (R51, R56). -/
def WellFormedAll.Statement (i : Instr) : Prop := i.wellFormed = true

/-- The instruction's bytes are the opcode byte of its mnemonic and format, then its operand bytes, and there
are as many as its length says (R50, R51, R54). -/
def EncodedBytes.Statement (i : Instr) : Prop :=
  ∃ b, opcodeByte i.mnemonic i.format = some b ∧ encode i = b :: i.operand.bytes ∧ (encode i).length = i.length

theorem WellFormedAll.ldaImm (imm : Byte) : WellFormedAll.Statement (.ldaImm imm) := rfl
theorem WellFormedAll.ldaZp (zp : Byte) : WellFormedAll.Statement (.ldaZp zp) := rfl
theorem WellFormedAll.ldaZpx (zp : Byte) : WellFormedAll.Statement (.ldaZpx zp) := rfl
theorem WellFormedAll.ldaAbs (addr : Addr) : WellFormedAll.Statement (.ldaAbs addr) := rfl
theorem WellFormedAll.ldaAbx (addr : Addr) : WellFormedAll.Statement (.ldaAbx addr) := rfl
theorem WellFormedAll.ldaAby (addr : Addr) : WellFormedAll.Statement (.ldaAby addr) := rfl
theorem WellFormedAll.ldaIzx (zp : Byte) : WellFormedAll.Statement (.ldaIzx zp) := rfl
theorem WellFormedAll.ldaIzy (zp : Byte) : WellFormedAll.Statement (.ldaIzy zp) := rfl
theorem WellFormedAll.ldxImm (imm : Byte) : WellFormedAll.Statement (.ldxImm imm) := rfl
theorem WellFormedAll.ldxZp (zp : Byte) : WellFormedAll.Statement (.ldxZp zp) := rfl
theorem WellFormedAll.ldxZpy (zp : Byte) : WellFormedAll.Statement (.ldxZpy zp) := rfl
theorem WellFormedAll.ldxAbs (addr : Addr) : WellFormedAll.Statement (.ldxAbs addr) := rfl
theorem WellFormedAll.ldxAby (addr : Addr) : WellFormedAll.Statement (.ldxAby addr) := rfl
theorem WellFormedAll.ldyImm (imm : Byte) : WellFormedAll.Statement (.ldyImm imm) := rfl
theorem WellFormedAll.ldyZp (zp : Byte) : WellFormedAll.Statement (.ldyZp zp) := rfl
theorem WellFormedAll.ldyZpx (zp : Byte) : WellFormedAll.Statement (.ldyZpx zp) := rfl
theorem WellFormedAll.ldyAbs (addr : Addr) : WellFormedAll.Statement (.ldyAbs addr) := rfl
theorem WellFormedAll.ldyAbx (addr : Addr) : WellFormedAll.Statement (.ldyAbx addr) := rfl
theorem WellFormedAll.adcImm (imm : Byte) : WellFormedAll.Statement (.adcImm imm) := rfl
theorem WellFormedAll.adcZp (zp : Byte) : WellFormedAll.Statement (.adcZp zp) := rfl
theorem WellFormedAll.adcZpx (zp : Byte) : WellFormedAll.Statement (.adcZpx zp) := rfl
theorem WellFormedAll.adcAbs (addr : Addr) : WellFormedAll.Statement (.adcAbs addr) := rfl
theorem WellFormedAll.adcAbx (addr : Addr) : WellFormedAll.Statement (.adcAbx addr) := rfl
theorem WellFormedAll.adcAby (addr : Addr) : WellFormedAll.Statement (.adcAby addr) := rfl
theorem WellFormedAll.adcIzx (zp : Byte) : WellFormedAll.Statement (.adcIzx zp) := rfl
theorem WellFormedAll.adcIzy (zp : Byte) : WellFormedAll.Statement (.adcIzy zp) := rfl
theorem WellFormedAll.andImm (imm : Byte) : WellFormedAll.Statement (.andImm imm) := rfl
theorem WellFormedAll.andZp (zp : Byte) : WellFormedAll.Statement (.andZp zp) := rfl
theorem WellFormedAll.andZpx (zp : Byte) : WellFormedAll.Statement (.andZpx zp) := rfl
theorem WellFormedAll.andAbs (addr : Addr) : WellFormedAll.Statement (.andAbs addr) := rfl
theorem WellFormedAll.andAbx (addr : Addr) : WellFormedAll.Statement (.andAbx addr) := rfl
theorem WellFormedAll.andAby (addr : Addr) : WellFormedAll.Statement (.andAby addr) := rfl
theorem WellFormedAll.andIzx (zp : Byte) : WellFormedAll.Statement (.andIzx zp) := rfl
theorem WellFormedAll.andIzy (zp : Byte) : WellFormedAll.Statement (.andIzy zp) := rfl
theorem WellFormedAll.aslAcc : WellFormedAll.Statement .aslAcc := rfl
theorem WellFormedAll.aslZp (zp : Byte) : WellFormedAll.Statement (.aslZp zp) := rfl
theorem WellFormedAll.aslZpx (zp : Byte) : WellFormedAll.Statement (.aslZpx zp) := rfl
theorem WellFormedAll.aslAbs (addr : Addr) : WellFormedAll.Statement (.aslAbs addr) := rfl
theorem WellFormedAll.aslAbx (addr : Addr) : WellFormedAll.Statement (.aslAbx addr) := rfl
theorem WellFormedAll.bcc (rel : Byte) : WellFormedAll.Statement (.bcc rel) := rfl
theorem WellFormedAll.bcs (rel : Byte) : WellFormedAll.Statement (.bcs rel) := rfl
theorem WellFormedAll.beq (rel : Byte) : WellFormedAll.Statement (.beq rel) := rfl
theorem WellFormedAll.bmi (rel : Byte) : WellFormedAll.Statement (.bmi rel) := rfl
theorem WellFormedAll.bne (rel : Byte) : WellFormedAll.Statement (.bne rel) := rfl
theorem WellFormedAll.bpl (rel : Byte) : WellFormedAll.Statement (.bpl rel) := rfl
theorem WellFormedAll.bvc (rel : Byte) : WellFormedAll.Statement (.bvc rel) := rfl
theorem WellFormedAll.bvs (rel : Byte) : WellFormedAll.Statement (.bvs rel) := rfl
theorem WellFormedAll.clc : WellFormedAll.Statement .clc := rfl
theorem WellFormedAll.cld : WellFormedAll.Statement .cld := rfl
theorem WellFormedAll.cli : WellFormedAll.Statement .cli := rfl
theorem WellFormedAll.clv : WellFormedAll.Statement .clv := rfl
theorem WellFormedAll.sec : WellFormedAll.Statement .sec := rfl
theorem WellFormedAll.sed : WellFormedAll.Statement .sed := rfl
theorem WellFormedAll.sei : WellFormedAll.Statement .sei := rfl
theorem WellFormedAll.nop : WellFormedAll.Statement .nop := rfl

theorem EncodedBytes.ldaImm (imm : Byte) : EncodedBytes.Statement (.ldaImm imm) := ⟨_, rfl, rfl, rfl⟩
theorem EncodedBytes.ldaZp (zp : Byte) : EncodedBytes.Statement (.ldaZp zp) := ⟨_, rfl, rfl, rfl⟩
theorem EncodedBytes.ldaZpx (zp : Byte) : EncodedBytes.Statement (.ldaZpx zp) := ⟨_, rfl, rfl, rfl⟩
theorem EncodedBytes.ldaAbs (addr : Addr) : EncodedBytes.Statement (.ldaAbs addr) := ⟨_, rfl, rfl, rfl⟩
theorem EncodedBytes.ldaAbx (addr : Addr) : EncodedBytes.Statement (.ldaAbx addr) := ⟨_, rfl, rfl, rfl⟩
theorem EncodedBytes.ldaAby (addr : Addr) : EncodedBytes.Statement (.ldaAby addr) := ⟨_, rfl, rfl, rfl⟩
theorem EncodedBytes.ldaIzx (zp : Byte) : EncodedBytes.Statement (.ldaIzx zp) := ⟨_, rfl, rfl, rfl⟩
theorem EncodedBytes.ldaIzy (zp : Byte) : EncodedBytes.Statement (.ldaIzy zp) := ⟨_, rfl, rfl, rfl⟩
theorem EncodedBytes.ldxImm (imm : Byte) : EncodedBytes.Statement (.ldxImm imm) := ⟨_, rfl, rfl, rfl⟩
theorem EncodedBytes.ldxZp (zp : Byte) : EncodedBytes.Statement (.ldxZp zp) := ⟨_, rfl, rfl, rfl⟩
theorem EncodedBytes.ldxZpy (zp : Byte) : EncodedBytes.Statement (.ldxZpy zp) := ⟨_, rfl, rfl, rfl⟩
theorem EncodedBytes.ldxAbs (addr : Addr) : EncodedBytes.Statement (.ldxAbs addr) := ⟨_, rfl, rfl, rfl⟩
theorem EncodedBytes.ldxAby (addr : Addr) : EncodedBytes.Statement (.ldxAby addr) := ⟨_, rfl, rfl, rfl⟩
theorem EncodedBytes.ldyImm (imm : Byte) : EncodedBytes.Statement (.ldyImm imm) := ⟨_, rfl, rfl, rfl⟩
theorem EncodedBytes.ldyZp (zp : Byte) : EncodedBytes.Statement (.ldyZp zp) := ⟨_, rfl, rfl, rfl⟩
theorem EncodedBytes.ldyZpx (zp : Byte) : EncodedBytes.Statement (.ldyZpx zp) := ⟨_, rfl, rfl, rfl⟩
theorem EncodedBytes.ldyAbs (addr : Addr) : EncodedBytes.Statement (.ldyAbs addr) := ⟨_, rfl, rfl, rfl⟩
theorem EncodedBytes.ldyAbx (addr : Addr) : EncodedBytes.Statement (.ldyAbx addr) := ⟨_, rfl, rfl, rfl⟩
theorem EncodedBytes.adcImm (imm : Byte) : EncodedBytes.Statement (.adcImm imm) := ⟨_, rfl, rfl, rfl⟩
theorem EncodedBytes.adcZp (zp : Byte) : EncodedBytes.Statement (.adcZp zp) := ⟨_, rfl, rfl, rfl⟩
theorem EncodedBytes.adcZpx (zp : Byte) : EncodedBytes.Statement (.adcZpx zp) := ⟨_, rfl, rfl, rfl⟩
theorem EncodedBytes.adcAbs (addr : Addr) : EncodedBytes.Statement (.adcAbs addr) := ⟨_, rfl, rfl, rfl⟩
theorem EncodedBytes.adcAbx (addr : Addr) : EncodedBytes.Statement (.adcAbx addr) := ⟨_, rfl, rfl, rfl⟩
theorem EncodedBytes.adcAby (addr : Addr) : EncodedBytes.Statement (.adcAby addr) := ⟨_, rfl, rfl, rfl⟩
theorem EncodedBytes.adcIzx (zp : Byte) : EncodedBytes.Statement (.adcIzx zp) := ⟨_, rfl, rfl, rfl⟩
theorem EncodedBytes.adcIzy (zp : Byte) : EncodedBytes.Statement (.adcIzy zp) := ⟨_, rfl, rfl, rfl⟩
theorem EncodedBytes.andImm (imm : Byte) : EncodedBytes.Statement (.andImm imm) := ⟨_, rfl, rfl, rfl⟩
theorem EncodedBytes.andZp (zp : Byte) : EncodedBytes.Statement (.andZp zp) := ⟨_, rfl, rfl, rfl⟩
theorem EncodedBytes.andZpx (zp : Byte) : EncodedBytes.Statement (.andZpx zp) := ⟨_, rfl, rfl, rfl⟩
theorem EncodedBytes.andAbs (addr : Addr) : EncodedBytes.Statement (.andAbs addr) := ⟨_, rfl, rfl, rfl⟩
theorem EncodedBytes.andAbx (addr : Addr) : EncodedBytes.Statement (.andAbx addr) := ⟨_, rfl, rfl, rfl⟩
theorem EncodedBytes.andAby (addr : Addr) : EncodedBytes.Statement (.andAby addr) := ⟨_, rfl, rfl, rfl⟩
theorem EncodedBytes.andIzx (zp : Byte) : EncodedBytes.Statement (.andIzx zp) := ⟨_, rfl, rfl, rfl⟩
theorem EncodedBytes.andIzy (zp : Byte) : EncodedBytes.Statement (.andIzy zp) := ⟨_, rfl, rfl, rfl⟩
theorem EncodedBytes.aslAcc : EncodedBytes.Statement .aslAcc := ⟨_, rfl, rfl, rfl⟩
theorem EncodedBytes.aslZp (zp : Byte) : EncodedBytes.Statement (.aslZp zp) := ⟨_, rfl, rfl, rfl⟩
theorem EncodedBytes.aslZpx (zp : Byte) : EncodedBytes.Statement (.aslZpx zp) := ⟨_, rfl, rfl, rfl⟩
theorem EncodedBytes.aslAbs (addr : Addr) : EncodedBytes.Statement (.aslAbs addr) := ⟨_, rfl, rfl, rfl⟩
theorem EncodedBytes.aslAbx (addr : Addr) : EncodedBytes.Statement (.aslAbx addr) := ⟨_, rfl, rfl, rfl⟩
theorem EncodedBytes.bcc (rel : Byte) : EncodedBytes.Statement (.bcc rel) := ⟨_, rfl, rfl, rfl⟩
theorem EncodedBytes.bcs (rel : Byte) : EncodedBytes.Statement (.bcs rel) := ⟨_, rfl, rfl, rfl⟩
theorem EncodedBytes.beq (rel : Byte) : EncodedBytes.Statement (.beq rel) := ⟨_, rfl, rfl, rfl⟩
theorem EncodedBytes.bmi (rel : Byte) : EncodedBytes.Statement (.bmi rel) := ⟨_, rfl, rfl, rfl⟩
theorem EncodedBytes.bne (rel : Byte) : EncodedBytes.Statement (.bne rel) := ⟨_, rfl, rfl, rfl⟩
theorem EncodedBytes.bpl (rel : Byte) : EncodedBytes.Statement (.bpl rel) := ⟨_, rfl, rfl, rfl⟩
theorem EncodedBytes.bvc (rel : Byte) : EncodedBytes.Statement (.bvc rel) := ⟨_, rfl, rfl, rfl⟩
theorem EncodedBytes.bvs (rel : Byte) : EncodedBytes.Statement (.bvs rel) := ⟨_, rfl, rfl, rfl⟩
theorem EncodedBytes.clc : EncodedBytes.Statement .clc := ⟨_, rfl, rfl, rfl⟩
theorem EncodedBytes.cld : EncodedBytes.Statement .cld := ⟨_, rfl, rfl, rfl⟩
theorem EncodedBytes.cli : EncodedBytes.Statement .cli := ⟨_, rfl, rfl, rfl⟩
theorem EncodedBytes.clv : EncodedBytes.Statement .clv := ⟨_, rfl, rfl, rfl⟩
theorem EncodedBytes.sec : EncodedBytes.Statement .sec := ⟨_, rfl, rfl, rfl⟩
theorem EncodedBytes.sed : EncodedBytes.Statement .sed := ⟨_, rfl, rfl, rfl⟩
theorem EncodedBytes.sei : EncodedBytes.Statement .sei := ⟨_, rfl, rfl, rfl⟩
theorem EncodedBytes.nop : EncodedBytes.Statement .nop := ⟨_, rfl, rfl, rfl⟩

end Sys2Proof.Laws
end

