-- ==== Sys2Proof/Laws/Decode.lean ====
section
/-! SUPPORT. The opcode table behind the decoder, and what a successful decoding says. -/

namespace Sys2Proof

/-- A looked-up row is a row of the table, for that byte. -/
theorem lookupOpcode_some {b : Byte} {r : OpcodeRow} (h : lookupOpcode b = some r) :
    r ∈ opcodeTable ∧ r.byte = b :=
  ⟨List.mem_of_find?_eq_some h, by simpa using List.find?_some h⟩

/-- The table has one row per byte: looking up a row's byte gives the row. -/
theorem lookupOpcode_row : ∀ r ∈ opcodeTable, lookupOpcode r.byte = some r := by decide

/-- The table's row is the encoder's cell (the two forms of R56 agree on the rows). -/
theorem opcodeByte_row : ∀ r ∈ opcodeTable, opcodeByte r.mnemonic r.format = some r.byte := by decide

/-- Every row has an instruction, of the row's mnemonic and format. -/
theorem assemble_row : ∀ r ∈ opcodeTable, ∀ b1 b2 : Byte,
    ∃ i, assemble r.mnemonic r.format b1 b2 = some i ∧ i.mnemonic = r.mnemonic ∧ i.format = r.format := by
  simp only [opcodeTable, opcodeRows0, opcodeRows4, opcodeRows8, opcodeRowsC, List.cons_append, List.nil_append,
    List.forall_mem_cons, List.not_mem_nil, false_implies, implies_true, and_true]
  refine ⟨?_, ?_, ?_, ?_, ?_, ?_, ?_, ?_, ?_, ?_, ?_, ?_, ?_, ?_, ?_, ?_, ?_, ?_, ?_, ?_, ?_, ?_, ?_, ?_, ?_, ?_, ?_, ?_,
    ?_, ?_, ?_, ?_, ?_, ?_, ?_, ?_, ?_, ?_, ?_, ?_, ?_, ?_, ?_, ?_, ?_, ?_, ?_, ?_, ?_, ?_, ?_, ?_, ?_, ?_, ?_⟩ <;>
    exact fun _ _ => ⟨_, rfl, rfl, rfl⟩

/-- Every instruction is well formed (R51, R56, R57). -/
theorem wellFormed_all (i : Instr) : i.wellFormed = true := by cases i <;> rfl

/-- The format of an instruction is one its mnemonic has. -/
theorem format_mem (i : Instr) : i.format ∈ i.mnemonic.formats := by
  have h := wellFormed_all i
  simp only [Instr.wellFormed, RawInstr.wellFormed, RawInstr.formatChecks, Bool.and_eq_true, decide_eq_true_eq] at h
  exact h.1

/-- Every instruction has a row, at the encoder's byte. -/
theorem row_of_instr (i : Instr) : ∃ r ∈ opcodeTable,
    r.mnemonic = i.mnemonic ∧ r.format = i.format ∧ opcodeByte i.mnemonic i.format = some r.byte := by
  have key : ∀ m : Mnemonic, ∀ f ∈ m.formats, ∃ r ∈ opcodeTable,
      r.mnemonic = m ∧ r.format = f ∧ opcodeByte m f = some r.byte := by
    intro m; cases m <;> decide
  exact key i.mnemonic i.format (format_mem i)

/-- An unassigned byte decodes to its name (R57). -/
theorem decode_unassigned {b : Byte} (h : lookupOpcode b = none) (rest : List Byte) :
    decode (b :: rest) = .error (.unassigned b) := by
  simp [decode, h]

/-- With enough operand bytes behind it, an assigned byte decodes, consuming exactly the operand bytes of its
format (R54). -/
theorem decode_assigned {b : Byte} {r : OpcodeRow} (h : lookupOpcode b = some r) (ops rest : List Byte)
    (hl : ops.length = r.format.operandCount) :
    ∃ i, decode (b :: (ops ++ rest)) = .ok (i, rest) ∧ i.mnemonic = r.mnemonic ∧ i.format = r.format := by
  obtain ⟨hr, -⟩ := lookupOpcode_some h
  have fin : ∀ b1 b2 : Byte, ∃ i, decodeRow.finish r b1 b2 rest = .ok (i, rest) ∧
      i.mnemonic = r.mnemonic ∧ i.format = r.format := by
    intro b1 b2
    obtain ⟨i, hi, hm, hf⟩ := assemble_row r hr b1 b2
    exact ⟨i, by simp [decodeRow.finish, hi], hm, hf⟩
  simp only [decode, h, decodeRow, ← hl]
  match ops, hl with
  | [], _ => exact fin 0 0
  | [b1], _ => exact fin b1 0
  | [b1, b2], _ => exact fin b1 b2
  | _ :: _ :: _ :: _, hl => exact absurd hl (by cases r.format <;> simp [Format.operandCount])

/-- The byte of an assigned opcode never decodes to `unassigned` (R62). -/
theorem decode_error {b : Byte} {rest : List Byte} {e : DecodeError} (h : decode (b :: rest) = .error e) :
    (lookupOpcode b = none ∧ e = .unassigned b) ∨
      ∃ r, lookupOpcode b = some r ∧ e = .truncated b ∧ rest.length < r.format.operandCount := by
  cases hb : lookupOpcode b with
  | none => simp [decode, hb] at h; exact .inl ⟨rfl, h.symm⟩
  | some r =>
    refine .inr ⟨r, rfl, ?_⟩
    by_cases hl : r.format.operandCount ≤ rest.length
    · obtain ⟨i, hi, -⟩ := decode_assigned hb (rest.take r.format.operandCount) (rest.drop r.format.operandCount)
        (by simpa using hl)
      rw [List.take_append_drop, h] at hi
      exact absurd hi (by simp)
    · obtain ⟨hr, hbyte⟩ := lookupOpcode_some hb
      refine ⟨?_, by omega⟩
      simp only [decode, hb, decodeRow] at h
      subst hbyte
      revert h hl
      cases r.format <;> rcases rest with _ | ⟨b1, _ | ⟨b2, rest⟩⟩ <;> simp [Format.operandCount, eq_comm]

end Sys2Proof
end

