-- ==== Sys2Proof/Laws/Flags.lean ====
section
/-! SUPPORT. Reading a flag of a byte with a flag written, and of the flag bytes the meanings compute. -/

namespace Sys2Proof.Machine

theorem Flag.bit_lt (f : Flag) : f.bit < 8 := by cases f <;> decide

theorem Flag.bit_inj {f g : Flag} (h : f.bit = g.bit) : f = g := by
  cases f <;> cases g <;> first | rfl | exact absurd h (by decide)

/-- Writing a flag writes that bit alone (R21, R94). -/
@[simp] theorem getFlag_setFlag (f g : Flag) (v : Bool) (p : Byte) :
    getFlag f (setFlag g v p) = if f = g then v else getFlag f p := by
  cases f <;> cases g <;> cases v <;> simp [getFlag, setFlag, Flag.bit]

/-- Two bytes with the same eight flags are the same byte. -/
theorem eq_of_getFlag {p q : Byte} (h : ∀ f, getFlag f p = getFlag f q) : p = q := by
  apply BitVec.eq_of_getLsbD_eq
  intro i hi
  have hC := h .C; have hZ := h .Z; have hI := h .I; have hD := h .D
  have hB := h .B; have hU := h .U; have hV := h .V; have hN := h .N
  simp only [getFlag, Flag.bit] at *
  match i, hi with
  | 0, _ => exact hC
  | 1, _ => exact hZ
  | 2, _ => exact hI
  | 3, _ => exact hD
  | 4, _ => exact hB
  | 5, _ => exact hU
  | 6, _ => exact hV
  | 7, _ => exact hN

/-- What `setZN` leaves in each flag (R90, R91). -/
theorem getFlag_setZN (f : Flag) (r p : Byte) :
    getFlag f (setZN r p) =
      if f = .N then signOf r.toNat else if f = .Z then zeroOf r.toNat else getFlag f p := by
  simp [setZN]

/-- What an add leaves in each flag (R110). -/
theorem getFlag_flagsOfAdd (f : Flag) (a m p : Byte) :
    getFlag f (flagsOfAdd a m p) =
      if f = .V then overflowOf a m (truncate8 (addIntermediate a m (getFlag .C p)))
      else if f = .C then carryOf (addIntermediate a m (getFlag .C p))
      else getFlag f (setZN (truncate8 (addIntermediate a m (getFlag .C p))) p) := by
  simp [flagsOfAdd]

/-- What a shift leaves in each flag (R120, R121). -/
theorem getFlag_flagsOfShift (f : Flag) (v p : Byte) :
    getFlag f (flagsOfShift v p) =
      if f = .C then v.msb else getFlag f (setZN (truncate8 (shiftIntermediate v)) p) := by
  simp [flagsOfShift]

end Sys2Proof.Machine
end

