-- ==== Sys2Proof/Laws/State.lean ====
section
/-! SUPPORT. One lemma per field per named update of the state, each true by `rfl`. -/

namespace Sys2Proof.Machine

@[simp] theorem memWrite_a (a : Addr) (v : Byte) (s : State) : (memWrite a v s).a = s.a := rfl
@[simp] theorem memWrite_x (a : Addr) (v : Byte) (s : State) : (memWrite a v s).x = s.x := rfl
@[simp] theorem memWrite_y (a : Addr) (v : Byte) (s : State) : (memWrite a v s).y = s.y := rfl
@[simp] theorem memWrite_sp (a : Addr) (v : Byte) (s : State) : (memWrite a v s).sp = s.sp := rfl
@[simp] theorem memWrite_pc (a : Addr) (v : Byte) (s : State) : (memWrite a v s).pc = s.pc := rfl
@[simp] theorem memWrite_p (a : Addr) (v : Byte) (s : State) : (memWrite a v s).p = s.p := rfl
@[simp] theorem memWrite_mem (a : Addr) (v : Byte) (s : State) : (memWrite a v s).mem = s.mem.write a v := rfl
@[simp] theorem memWrite_cyc (a : Addr) (v : Byte) (s : State) : (memWrite a v s).cyc = s.cyc := rfl

@[simp] theorem hostWrite_a (a : Addr) (v : Byte) (s : State) : (hostWrite a v s).a = s.a := rfl
@[simp] theorem hostWrite_x (a : Addr) (v : Byte) (s : State) : (hostWrite a v s).x = s.x := rfl
@[simp] theorem hostWrite_y (a : Addr) (v : Byte) (s : State) : (hostWrite a v s).y = s.y := rfl
@[simp] theorem hostWrite_sp (a : Addr) (v : Byte) (s : State) : (hostWrite a v s).sp = s.sp := rfl
@[simp] theorem hostWrite_pc (a : Addr) (v : Byte) (s : State) : (hostWrite a v s).pc = s.pc := rfl
@[simp] theorem hostWrite_p (a : Addr) (v : Byte) (s : State) : (hostWrite a v s).p = s.p := rfl
@[simp] theorem hostWrite_mem (a : Addr) (v : Byte) (s : State) : (hostWrite a v s).mem = s.mem.write a v := rfl
@[simp] theorem hostWrite_cyc (a : Addr) (v : Byte) (s : State) : (hostWrite a v s).cyc = s.cyc := rfl

@[simp] theorem hostSetRegisters_a (r : Registers) (s : State) : (hostSetRegisters r s).a = r.a := rfl
@[simp] theorem hostSetRegisters_x (r : Registers) (s : State) : (hostSetRegisters r s).x = r.x := rfl
@[simp] theorem hostSetRegisters_y (r : Registers) (s : State) : (hostSetRegisters r s).y = r.y := rfl
@[simp] theorem hostSetRegisters_sp (r : Registers) (s : State) : (hostSetRegisters r s).sp = r.sp := rfl
@[simp] theorem hostSetRegisters_pc (r : Registers) (s : State) : (hostSetRegisters r s).pc = r.pc := rfl
@[simp] theorem hostSetRegisters_p (r : Registers) (s : State) : (hostSetRegisters r s).p = r.p := rfl
@[simp] theorem hostSetRegisters_mem (r : Registers) (s : State) : (hostSetRegisters r s).mem = s.mem := rfl
@[simp] theorem hostSetRegisters_cyc (r : Registers) (s : State) : (hostSetRegisters r s).cyc = s.cyc := rfl

@[simp] theorem launch_a (r : Registers) (m : Memory) : (State.launch r m).a = r.a := rfl
@[simp] theorem launch_x (r : Registers) (m : Memory) : (State.launch r m).x = r.x := rfl
@[simp] theorem launch_y (r : Registers) (m : Memory) : (State.launch r m).y = r.y := rfl
@[simp] theorem launch_sp (r : Registers) (m : Memory) : (State.launch r m).sp = r.sp := rfl
@[simp] theorem launch_pc (r : Registers) (m : Memory) : (State.launch r m).pc = r.pc := rfl
@[simp] theorem launch_p (r : Registers) (m : Memory) : (State.launch r m).p = r.p := rfl
@[simp] theorem launch_mem (r : Registers) (m : Memory) : (State.launch r m).mem = m := rfl
@[simp] theorem launch_cyc (r : Registers) (m : Memory) : (State.launch r m).cyc = Config.resetCyc := rfl

@[simp] theorem registers_a (s : State) : s.registers.a = s.a := rfl
@[simp] theorem registers_x (s : State) : s.registers.x = s.x := rfl
@[simp] theorem registers_y (s : State) : s.registers.y = s.y := rfl
@[simp] theorem registers_sp (s : State) : s.registers.sp = s.sp := rfl
@[simp] theorem registers_pc (s : State) : s.registers.pc = s.pc := rfl
@[simp] theorem registers_p (s : State) : s.registers.p = s.p := rfl

/-- The end of a step answers exactly one next state: `PC` and `CYC` written, the rest kept (R176, R177). -/
@[simp] theorem retireAt_next_iff (next : Addr) (cycles : Nat) (s t : State) :
    retireAt next cycles s = .next t ↔ { s with pc := next, cyc := s.cyc + BitVec.ofNat 32 cycles } = t := by
  simp [retireAt]

@[simp] theorem retire_eq (f : Format) (cycles : Nat) (s : State) :
    retire f cycles s = retireAt (pcAfter f s.pc) cycles s := rfl

end Sys2Proof.Machine
end

