-- ==== Sys2Proof/Laws/Exec.lean ====
section
/-! SUPPORT. What the shared operations of the meanings can do, said once, and which of them an instruction is. -/

namespace Sys2Proof.Machine

/-- The next state of LDA (R100). -/
theorem loadA_next_iff (x : Source) (base : Nat) (s t : State) :
    loadA x base s = .next t ↔
      { s with a := sourceValue x s, p := setZN (sourceValue x s) s.p, pc := pcAfter x.format s.pc,
               cyc := s.cyc + BitVec.ofNat 32 (base + sourcePenalty x s) } = t := by
  simp [loadA]

/-- The next state of LDX (R101). -/
theorem loadX_next_iff (x : Source) (base : Nat) (s t : State) :
    loadX x base s = .next t ↔
      { s with x := sourceValue x s, p := setZN (sourceValue x s) s.p, pc := pcAfter x.format s.pc,
               cyc := s.cyc + BitVec.ofNat 32 (base + sourcePenalty x s) } = t := by
  simp [loadX]

/-- The next state of LDY (R102). -/
theorem loadY_next_iff (x : Source) (base : Nat) (s t : State) :
    loadY x base s = .next t ↔
      { s with y := sourceValue x s, p := setZN (sourceValue x s) s.p, pc := pcAfter x.format s.pc,
               cyc := s.cyc + BitVec.ofNat 32 (base + sourcePenalty x s) } = t := by
  simp [loadY]

/-- The next state of ADC (R110). -/
theorem addToA_next_iff (x : Source) (base : Nat) (s t : State) :
    addToA x base s = .next t ↔
      { s with a := truncate8 (addIntermediate s.a (sourceValue x s) (getFlag .C s.p)),
               p := flagsOfAdd s.a (sourceValue x s) s.p, pc := pcAfter x.format s.pc,
               cyc := s.cyc + BitVec.ofNat 32 (base + sourcePenalty x s) } = t := by
  simp [addToA]

/-- The next state of AND (R111). -/
theorem andToA_next_iff (x : Source) (base : Nat) (s t : State) :
    andToA x base s = .next t ↔
      { s with a := s.a &&& sourceValue x s, p := setZN (s.a &&& sourceValue x s) s.p, pc := pcAfter x.format s.pc,
               cyc := s.cyc + BitVec.ofNat 32 (base + sourcePenalty x s) } = t := by
  simp [andToA]

/-- The next state of ASL A (R120). -/
theorem execAslAcc_next_iff (s t : State) :
    execAslAcc s = .next t ↔
      { s with a := truncate8 (shiftIntermediate s.a), p := flagsOfShift s.a s.p, pc := pcAfter .ACC s.pc,
               cyc := s.cyc + BitVec.ofNat 32 2 } = t := by
  simp [execAslAcc]

/-- The next state of ASL on memory (R121). -/
theorem shiftMem_next_iff (m : MemMode) (cycles : Nat) (s t : State) :
    shiftMem m cycles s = .next t ↔
      { s with mem := s.mem.write (resolveMem m s).ea (truncate8 (shiftIntermediate (s.mem.read (resolveMem m s).ea))),
               p := flagsOfShift (s.mem.read (resolveMem m s).ea) s.p, pc := pcAfter m.format s.pc,
               cyc := s.cyc + BitVec.ofNat 32 cycles } = t := by
  simp [shiftMem, memRead, memWrite]

/-- The next state of a branch (R130). -/
theorem branchIf_next_iff (cond : Bool) (rel : Byte) (s t : State) :
    branchIf cond rel s = .next t ↔
      { s with pc := if cond then (branchTarget s.pc rel).ea else branchBase s.pc,
               cyc := s.cyc + BitVec.ofNat 32
                 (if cond then 3 + (if (branchTarget s.pc rel).crossed then 1 else 0) else 2) } = t := by
  cases cond <;> simp [branchIf]

/-- The next state of a flag instruction (R150 to R156). -/
theorem writeFlag_next_iff (f : Flag) (v : Bool) (s t : State) :
    writeFlag f v s = .next t ↔
      { s with p := setFlag f v s.p, pc := pcAfter .IMP s.pc, cyc := s.cyc + BitVec.ofNat 32 2 } = t := by
  simp [writeFlag]

/-- Which shared operation an instruction is, with its operand form: everything `exec` can do (R174). -/
inductive Shape : Instr → (State → Outcome) → Prop where
  | lda (i x b) : i.mnemonic = .LDA → i.operand = .src x → Shape i (loadA x b)
  | ldx (i x b) : i.mnemonic = .LDX → i.operand = .src x → Shape i (loadX x b)
  | ldy (i x b) : i.mnemonic = .LDY → i.operand = .src x → Shape i (loadY x b)
  | adc (i x b) : i.mnemonic = .ADC → i.operand = .src x → Shape i (addToA x b)
  | and (i x b) : i.mnemonic = .AND → i.operand = .src x → Shape i (andToA x b)
  | aslAcc (i) : i.mnemonic = .ASL → i.operand = .acc → Shape i execAslAcc
  | aslMem (i m b) : i.mnemonic = .ASL → i.operand = .src (.mem m) → Shape i (shiftMem m b)
  | branch (i d f v) :
      (i.mnemonic, f, v) ∈ [(.BCC, .C, false), (.BCS, .C, true), (.BEQ, .Z, true), (.BMI, .N, true),
        (.BNE, .Z, false), (.BPL, .N, false), (.BVC, .V, false), (.BVS, Flag.V, true)] →
      i.operand = .rel d → Shape i (fun s => branchIf (getFlag f s.p == v) d s)
  | flag (i f v) :
      (i.mnemonic, f, v) ∈ [(.CLC, .C, false), (.CLD, .D, false), (.CLI, .I, false), (.CLV, .V, false),
        (.SEC, .C, true), (.SED, .D, true), (.SEI, Flag.I, true)] →
      i.operand = .imp → Shape i (writeFlag f v)
  | nop (i) : i.mnemonic = .NOP → i.operand = .imp → Shape i execNop

theorem branch_shape (i : Instr) (d : Byte) (f : Flag) (v : Bool) (g : State → Outcome)
    (hm : (i.mnemonic, f, v) ∈ [(.BCC, .C, false), (.BCS, .C, true), (.BEQ, .Z, true), (.BMI, .N, true),
        (.BNE, .Z, false), (.BPL, .N, false), (.BVC, .V, false), (.BVS, Flag.V, true)])
    (ho : i.operand = .rel d) (hg : ∀ s, g s = branchIf (getFlag f s.p == v) d s) : Shape i g := by
  rw [funext hg]
  exact .branch i d f v hm ho

/-- Every instruction runs as one of the shapes. -/
theorem exec_shape (i : Instr) : Shape i (exec i) := by
  cases i
  case ldaImm imm => exact .lda _ _ _ rfl rfl
  case ldaZp zp => exact .lda _ _ _ rfl rfl
  case ldaZpx zp => exact .lda _ _ _ rfl rfl
  case ldaAbs addr => exact .lda _ _ _ rfl rfl
  case ldaAbx addr => exact .lda _ _ _ rfl rfl
  case ldaAby addr => exact .lda _ _ _ rfl rfl
  case ldaIzx zp => exact .lda _ _ _ rfl rfl
  case ldaIzy zp => exact .lda _ _ _ rfl rfl
  case ldxImm imm => exact .ldx _ _ _ rfl rfl
  case ldxZp zp => exact .ldx _ _ _ rfl rfl
  case ldxZpy zp => exact .ldx _ _ _ rfl rfl
  case ldxAbs addr => exact .ldx _ _ _ rfl rfl
  case ldxAby addr => exact .ldx _ _ _ rfl rfl
  case ldyImm imm => exact .ldy _ _ _ rfl rfl
  case ldyZp zp => exact .ldy _ _ _ rfl rfl
  case ldyZpx zp => exact .ldy _ _ _ rfl rfl
  case ldyAbs addr => exact .ldy _ _ _ rfl rfl
  case ldyAbx addr => exact .ldy _ _ _ rfl rfl
  case adcImm imm => exact .adc _ _ _ rfl rfl
  case adcZp zp => exact .adc _ _ _ rfl rfl
  case adcZpx zp => exact .adc _ _ _ rfl rfl
  case adcAbs addr => exact .adc _ _ _ rfl rfl
  case adcAbx addr => exact .adc _ _ _ rfl rfl
  case adcAby addr => exact .adc _ _ _ rfl rfl
  case adcIzx zp => exact .adc _ _ _ rfl rfl
  case adcIzy zp => exact .adc _ _ _ rfl rfl
  case andImm imm => exact .and _ _ _ rfl rfl
  case andZp zp => exact .and _ _ _ rfl rfl
  case andZpx zp => exact .and _ _ _ rfl rfl
  case andAbs addr => exact .and _ _ _ rfl rfl
  case andAbx addr => exact .and _ _ _ rfl rfl
  case andAby addr => exact .and _ _ _ rfl rfl
  case andIzx zp => exact .and _ _ _ rfl rfl
  case andIzy zp => exact .and _ _ _ rfl rfl
  case aslAcc => exact .aslAcc _ rfl rfl
  case aslZp zp => exact .aslMem _ _ _ rfl rfl
  case aslZpx zp => exact .aslMem _ _ _ rfl rfl
  case aslAbs addr => exact .aslMem _ _ _ rfl rfl
  case aslAbx addr => exact .aslMem _ _ _ rfl rfl
  case bcc rel => exact branch_shape (.bcc rel) rel .C false _ (by decide +revert) rfl (fun s => by cases h : getFlag .C s.p <;> simp [exec, execBcc, h])
  case bcs rel => exact branch_shape (.bcs rel) rel .C true _ (by decide +revert) rfl (fun s => by cases h : getFlag .C s.p <;> simp [exec, execBcs, h])
  case beq rel => exact branch_shape (.beq rel) rel .Z true _ (by decide +revert) rfl (fun s => by cases h : getFlag .Z s.p <;> simp [exec, execBeq, h])
  case bmi rel => exact branch_shape (.bmi rel) rel .N true _ (by decide +revert) rfl (fun s => by cases h : getFlag .N s.p <;> simp [exec, execBmi, h])
  case bne rel => exact branch_shape (.bne rel) rel .Z false _ (by decide +revert) rfl (fun s => by cases h : getFlag .Z s.p <;> simp [exec, execBne, h])
  case bpl rel => exact branch_shape (.bpl rel) rel .N false _ (by decide +revert) rfl (fun s => by cases h : getFlag .N s.p <;> simp [exec, execBpl, h])
  case bvc rel => exact branch_shape (.bvc rel) rel .V false _ (by decide +revert) rfl (fun s => by cases h : getFlag .V s.p <;> simp [exec, execBvc, h])
  case bvs rel => exact branch_shape (.bvs rel) rel .V true _ (by decide +revert) rfl (fun s => by cases h : getFlag .V s.p <;> simp [exec, execBvs, h])
  case clc => exact .flag _ .C false (by decide) rfl
  case cld => exact .flag _ .D false (by decide) rfl
  case cli => exact .flag _ .I false (by decide) rfl
  case clv => exact .flag _ .V false (by decide) rfl
  case sec => exact .flag _ .C true (by decide) rfl
  case sed => exact .flag _ .D true (by decide) rfl
  case sei => exact .flag _ .I true (by decide) rfl
  case nop => exact .nop _ rfl rfl

end Sys2Proof.Machine
end

