-- ==== Sys2Proof/Laws/Fetch.lean ====
section
/-! SUPPORT. What fetching can answer. -/

namespace Sys2Proof.Machine

@[simp] theorem bytesAt_length (s : State) : ∀ (n : Nat) (a : Addr), (bytesAt s n a).length = n
  | 0, _ => rfl
  | n + 1, a => by simp only [bytesAt, List.length_cons, bytesAt_length s n (a + 1)]

theorem instrBytesAtPC_cons (s : State) :
    instrBytesAtPC s = opcodeAtPC s :: bytesAt s (operandBytesAtPC s) (s.pc + 1) := by
  simp [instrBytesAtPC, Nat.add_comm 1, bytesAt, opcodeAtPC]

/-- An assigned opcode byte always gives an instruction, of the row's mnemonic and format (R62, R193). -/
theorem fetch_assigned {s : State} {r : OpcodeRow} (h : lookupOpcode (opcodeAtPC s) = some r) :
    ∃ i, decode (instrBytesAtPC s) = .ok (i, []) ∧ fetch s = .ok i ∧ i.mnemonic = r.mnemonic ∧ i.format = r.format := by
  obtain ⟨i, hi, hm, hf⟩ := decode_assigned h (bytesAt s (operandBytesAtPC s) (s.pc + 1)) []
    (by simp [operandBytesAtPC, h])
  rw [List.append_nil, ← instrBytesAtPC_cons] at hi
  exact ⟨i, hi, by simp [fetch, hi], hm, hf⟩

/-- The one error of fetching is the unassigned opcode byte (R57, R190). -/
theorem fetch_unassigned {s : State} (h : lookupOpcode (opcodeAtPC s) = none) :
    fetch s = .error (.unassigned (opcodeAtPC s)) := by
  simp [fetch, instrBytesAtPC_cons, decode_unassigned h]

theorem fetch_error_iff (s : State) : (∃ e, fetch s = .error e) ↔ lookupOpcode (opcodeAtPC s) = none := by
  refine ⟨fun ⟨e, he⟩ => ?_, fun h => ⟨_, fetch_unassigned h⟩⟩
  cases h : lookupOpcode (opcodeAtPC s) with
  | none => rfl
  | some r =>
    obtain ⟨i, -, hi, -⟩ := fetch_assigned h
    rw [hi] at he
    exact absurd he (by simp)

end Sys2Proof.Machine
end

