-- ==== Sys2Proof/Laws/Memory.lean ====
section
/-! SUPPORT. Every memory operation keeps the canonical form, from any state. -/

namespace Sys2Proof.Machine

theorem cellsWf_weaken {lo lo' : Nat} (h : lo' ≤ lo) {cells : List Host.Cell} (w : cellsWf lo cells = true) :
    cellsWf lo' cells = true := by
  cases cells with
  | nil => rfl
  | cons c rest =>
    obtain ⟨k, v⟩ := c
    simp only [cellsWf, Bool.and_eq_true, decide_eq_true_eq] at w ⊢
    exact ⟨⟨⟨h.trans w.1.1.1, w.1.1.2⟩, w.1.2⟩, w.2⟩

theorem cellsWf_erase (a : Nat) : ∀ {lo : Nat} {cells : List Host.Cell},
    cellsWf lo cells = true → cellsWf lo (cellsErase cells a) = true
  | _, [], _ => rfl
  | lo, (k, v) :: rest, w => by
    simp only [cellsWf, Bool.and_eq_true, decide_eq_true_eq] at w
    obtain ⟨⟨⟨h1, h2⟩, h3⟩, h4⟩ := w
    have ih := cellsWf_erase a h4
    unfold cellsErase
    split
    · exact cellsWf_weaken (by omega) ih
    · simp only [cellsWf, Bool.and_eq_true, decide_eq_true_eq]
      exact ⟨⟨⟨h1, h2⟩, h3⟩, ih⟩

theorem cellsErase_ne (a : Nat) : ∀ {cells : List Host.Cell} {c : Host.Cell}, c ∈ cellsErase cells a → c.1 ≠ a
  | (k, v) :: rest, c, h => by
    unfold cellsErase at h
    split at h
    · exact cellsErase_ne a h
    · rcases List.mem_cons.1 h with rfl | h
      · assumption
      · exact cellsErase_ne a h

theorem cellsWf_insert {a : Nat} {v : Byte} (ha : a < Config.memorySize) (hv : v ≠ Memory.unlisted) :
    ∀ {lo : Nat} {cells : List Host.Cell}, lo ≤ a → (∀ c ∈ cells, c.1 ≠ a) → cellsWf lo cells = true →
      cellsWf lo (cellsInsert cells a v) = true
  | lo, [], hlo, _, _ => by simp [cellsInsert, cellsWf, hlo, ha, hv]
  | lo, (k, w) :: rest, hlo, hne, hw => by
    simp only [cellsWf, Bool.and_eq_true, decide_eq_true_eq] at hw
    obtain ⟨⟨⟨h1, h2⟩, h3⟩, h4⟩ := hw
    have hk : k ≠ a := hne (k, w) (by simp)
    unfold cellsInsert
    split
    · simp only [cellsWf, Bool.and_eq_true, decide_eq_true_eq, bne_iff_ne]
      exact ⟨⟨⟨hlo, ha⟩, hv⟩, ⟨⟨by omega, h2⟩, by simpa using h3⟩, h4⟩
    · simp only [cellsWf, Bool.and_eq_true, decide_eq_true_eq]
      exact ⟨⟨⟨h1, h2⟩, h3⟩,
        cellsWf_insert ha hv (by omega) (fun c hc => hne c (by simp [hc])) h4⟩

/-- A write keeps the canonical form. -/
theorem Memory.write_wf (m : Memory) (a : Addr) (v : Byte) (h : m.wf = true) : (m.write a v).wf = true := by
  have he := cellsWf_erase a.toNat h
  unfold Memory.wf Memory.write
  split
  · exact he
  · exact cellsWf_insert (by simpa [Config.memorySize] using a.isLt) ‹_› (by omega)
      (fun _ hc => cellsErase_ne _ hc) he

@[simp] theorem Memory.empty_wf : Memory.wf ⟨[]⟩ = true := rfl

theorem memWrite_wf (a : Addr) (v : Byte) (s : State) (h : s.mem.wf = true) : (memWrite a v s).mem.wf = true :=
  Memory.write_wf _ _ _ h

theorem hostLoad_wf : ∀ (bytes : List Byte) (a : Addr) (s : State),
    s.mem.wf = true → (hostLoad a bytes s).mem.wf = true
  | [], _, _, h => h
  | v :: rest, a, s, h => hostLoad_wf rest (a + 1) (hostWrite a v s) (Memory.write_wf _ _ _ h)

end Sys2Proof.Machine
end

