-- ==== Sys2Proof/Laws/Operands.lean ====
section
/-! SUPPORT. What the resolver depends on: X, Y and memory, and for REL the program counter; never A, SP, P or the cycle
total (R70). -/

namespace Sys2Proof.Machine

theorem readZP16_congr (z : Byte) {s u : State} (hm : u.mem = s.mem) : readZP16 z u = readZP16 z s := by
  simp only [readZP16, memRead, hm]

theorem resolveMem_congr (m : MemMode) {s u : State} (hx : u.x = s.x) (hy : u.y = s.y) (hm : u.mem = s.mem) :
    resolveMem m u = resolveMem m s := by
  cases m <;> simp only [resolveMem, hx, hy, readZP16_congr _ hm]

theorem resolveSource_congr (x : Source) {s u : State} (hx : u.x = s.x) (hy : u.y = s.y) (hm : u.mem = s.mem) :
    resolveSource x u = resolveSource x s := by
  cases x
  · rfl
  · simp only [resolveSource, resolveMem_congr _ hx hy hm]

theorem resolve_congr (o : Operand) {s u : State} (hx : u.x = s.x) (hy : u.y = s.y) (hm : u.mem = s.mem)
    (hpc : u.pc = s.pc) : resolve o u = resolve o s := by
  rcases o with _ | _ | x | d
  · rfl
  · rfl
  · exact resolveSource_congr x hx hy hm
  · simp only [resolve, hpc]

theorem sourceValue_congr (x : Source) {s u : State} (hx : u.x = s.x) (hy : u.y = s.y) (hm : u.mem = s.mem) :
    sourceValue x u = sourceValue x s := by
  cases x
  · rfl
  · simp only [sourceValue, memRead, resolveMem_congr _ hx hy hm, hm]

theorem sourcePenalty_congr (x : Source) {s u : State} (hx : u.x = s.x) (hy : u.y = s.y) (hm : u.mem = s.mem) :
    sourcePenalty x u = sourcePenalty x s := by
  unfold sourcePenalty
  rw [resolveSource_congr x hx hy hm]

end Sys2Proof.Machine
end

