-- ==== Sys2Proof/Tests/Slice0.lean ====
section
/-! SUPPORT. The model's own tests. Expected values come from the spec: the encoding table R56 (30_encoding.md) for the
decoding tests, the vectors V1 to V167 of 95_test_vectors.md (each named after its vector) for the single steps,
the rules for the rest. A `witness_` theorem shows that the hypotheses of the statement it is named after can be
met, at the boundary values of each clause. -/

namespace Sys2Proof.Tests

open Sys2Proof Sys2Proof.Machine Sys2Proof.Spec

/-- The state with the given registers, the cells written, then the bytes of one instruction written at PC; CYC is 0. -/
def placed (r : Registers) (bytes : List Byte) (cells : List (Addr × Byte)) : State :=
  hostLoad r.pc bytes (cells.foldl (fun s c => hostWrite c.1 c.2 s) (State.launch r ⟨[]⟩))

/-- The step ends in a next state with these registers and this cycle total, holding these cells, and makes these
accesses in this order. -/
def stepsTo (s : State) (r : Registers) (cells : List (Addr × Byte)) (cycles : Nat) (accesses : List Access) : Bool :=
  match step s with
  | .next t =>
    decide (t.registers = r) && decide (t.cyc = BitVec.ofNat 32 cycles) && decide (stepCycles s = some cycles) &&
      cells.all (fun c => hostRead c.1 t == c.2) && decide (stepAccesses s = accesses)
  | .fault _ | .refused _ => false

/-- The step reports IllegalOpcode with this byte, having read the opcode byte alone. -/
def stopsAt (s : State) (b : Byte) : Bool :=
  match step s with
  | .fault f => decide (f = .illegalOpcode b) && decide (stepAccesses s = [.rd s.pc]) && decide (stepCycles s = none)
  | .next _ | .refused _ => false

/-! ### Well-formedness -/

/-- LDX has no Zero Page,X form (R56, R85). -/
theorem test_wf_refuses_a_format_without_opcode :
    (RawInstr.mk .LDX .ZPX [0x10]).formatChecks = false ∧ (RawInstr.mk .LDX .ZPX [0x10]).wellFormed = false := by decide

/-- The Absolute form has two operand bytes (R51). -/
theorem test_wf_refuses_a_wrong_operand_count :
    (RawInstr.mk .LDA .ABS [0x34]).operandsCheck = false ∧ (RawInstr.mk .LDA .ABS [0x34]).wellFormed = false := by decide

/-- ASL on an immediate (R85) and a branch without its displacement are no instructions; ASL A is one. -/
theorem test_wf_more :
    (RawInstr.mk .ASL .IMM [0x10]).wellFormed = false ∧ (RawInstr.mk .BCC .REL []).wellFormed = false ∧
      (RawInstr.mk .NOP .IMP [0x00]).wellFormed = false ∧ (RawInstr.mk .ASL .ACC []).wellFormed = true := by decide

/-! ### Decoding and encoding: every row of R56, with the operand bytes 34 and 12 behind it -/

theorem test_decode_lda :
    decode [0xA1, 0x34, 0x12] = .ok (.ldaIzx 0x34, [0x12]) ∧
    decode [0xA5, 0x34, 0x12] = .ok (.ldaZp 0x34, [0x12]) ∧
    decode [0xA9, 0x34, 0x12] = .ok (.ldaImm 0x34, [0x12]) ∧
    decode [0xAD, 0x34, 0x12] = .ok (.ldaAbs 0x1234, []) ∧
    decode [0xB1, 0x34, 0x12] = .ok (.ldaIzy 0x34, [0x12]) ∧
    decode [0xB5, 0x34, 0x12] = .ok (.ldaZpx 0x34, [0x12]) ∧
    decode [0xB9, 0x34, 0x12] = .ok (.ldaAby 0x1234, []) ∧
    decode [0xBD, 0x34, 0x12] = .ok (.ldaAbx 0x1234, []) :=
  ⟨rfl, rfl, rfl, rfl, rfl, rfl, rfl, rfl⟩

theorem test_decode_ldx :
    decode [0xA2, 0x34, 0x12] = .ok (.ldxImm 0x34, [0x12]) ∧
    decode [0xA6, 0x34, 0x12] = .ok (.ldxZp 0x34, [0x12]) ∧
    decode [0xAE, 0x34, 0x12] = .ok (.ldxAbs 0x1234, []) ∧
    decode [0xB6, 0x34, 0x12] = .ok (.ldxZpy 0x34, [0x12]) ∧
    decode [0xBE, 0x34, 0x12] = .ok (.ldxAby 0x1234, []) :=
  ⟨rfl, rfl, rfl, rfl, rfl⟩

theorem test_decode_ldy :
    decode [0xA0, 0x34, 0x12] = .ok (.ldyImm 0x34, [0x12]) ∧
    decode [0xA4, 0x34, 0x12] = .ok (.ldyZp 0x34, [0x12]) ∧
    decode [0xAC, 0x34, 0x12] = .ok (.ldyAbs 0x1234, []) ∧
    decode [0xB4, 0x34, 0x12] = .ok (.ldyZpx 0x34, [0x12]) ∧
    decode [0xBC, 0x34, 0x12] = .ok (.ldyAbx 0x1234, []) :=
  ⟨rfl, rfl, rfl, rfl, rfl⟩

theorem test_decode_adc :
    decode [0x61, 0x34, 0x12] = .ok (.adcIzx 0x34, [0x12]) ∧
    decode [0x65, 0x34, 0x12] = .ok (.adcZp 0x34, [0x12]) ∧
    decode [0x69, 0x34, 0x12] = .ok (.adcImm 0x34, [0x12]) ∧
    decode [0x6D, 0x34, 0x12] = .ok (.adcAbs 0x1234, []) ∧
    decode [0x71, 0x34, 0x12] = .ok (.adcIzy 0x34, [0x12]) ∧
    decode [0x75, 0x34, 0x12] = .ok (.adcZpx 0x34, [0x12]) ∧
    decode [0x79, 0x34, 0x12] = .ok (.adcAby 0x1234, []) ∧
    decode [0x7D, 0x34, 0x12] = .ok (.adcAbx 0x1234, []) :=
  ⟨rfl, rfl, rfl, rfl, rfl, rfl, rfl, rfl⟩

theorem test_decode_and :
    decode [0x21, 0x34, 0x12] = .ok (.andIzx 0x34, [0x12]) ∧
    decode [0x25, 0x34, 0x12] = .ok (.andZp 0x34, [0x12]) ∧
    decode [0x29, 0x34, 0x12] = .ok (.andImm 0x34, [0x12]) ∧
    decode [0x2D, 0x34, 0x12] = .ok (.andAbs 0x1234, []) ∧
    decode [0x31, 0x34, 0x12] = .ok (.andIzy 0x34, [0x12]) ∧
    decode [0x35, 0x34, 0x12] = .ok (.andZpx 0x34, [0x12]) ∧
    decode [0x39, 0x34, 0x12] = .ok (.andAby 0x1234, []) ∧
    decode [0x3D, 0x34, 0x12] = .ok (.andAbx 0x1234, []) :=
  ⟨rfl, rfl, rfl, rfl, rfl, rfl, rfl, rfl⟩

theorem test_decode_asl :
    decode [0x06, 0x34, 0x12] = .ok (.aslZp 0x34, [0x12]) ∧
    decode [0x0A, 0x34, 0x12] = .ok (.aslAcc, [0x34, 0x12]) ∧
    decode [0x0E, 0x34, 0x12] = .ok (.aslAbs 0x1234, []) ∧
    decode [0x16, 0x34, 0x12] = .ok (.aslZpx 0x34, [0x12]) ∧
    decode [0x1E, 0x34, 0x12] = .ok (.aslAbx 0x1234, []) :=
  ⟨rfl, rfl, rfl, rfl, rfl⟩

theorem test_decode_branches :
    decode [0x90, 0x34, 0x12] = .ok (.bcc 0x34, [0x12]) ∧
    decode [0xB0, 0x34, 0x12] = .ok (.bcs 0x34, [0x12]) ∧
    decode [0xF0, 0x34, 0x12] = .ok (.beq 0x34, [0x12]) ∧
    decode [0x30, 0x34, 0x12] = .ok (.bmi 0x34, [0x12]) ∧
    decode [0xD0, 0x34, 0x12] = .ok (.bne 0x34, [0x12]) ∧
    decode [0x10, 0x34, 0x12] = .ok (.bpl 0x34, [0x12]) ∧
    decode [0x50, 0x34, 0x12] = .ok (.bvc 0x34, [0x12]) ∧
    decode [0x70, 0x34, 0x12] = .ok (.bvs 0x34, [0x12]) :=
  ⟨rfl, rfl, rfl, rfl, rfl, rfl, rfl, rfl⟩

theorem test_decode_flags_nop :
    decode [0x18, 0x34, 0x12] = .ok (.clc, [0x34, 0x12]) ∧
    decode [0xD8, 0x34, 0x12] = .ok (.cld, [0x34, 0x12]) ∧
    decode [0x58, 0x34, 0x12] = .ok (.cli, [0x34, 0x12]) ∧
    decode [0xB8, 0x34, 0x12] = .ok (.clv, [0x34, 0x12]) ∧
    decode [0x38, 0x34, 0x12] = .ok (.sec, [0x34, 0x12]) ∧
    decode [0xF8, 0x34, 0x12] = .ok (.sed, [0x34, 0x12]) ∧
    decode [0x78, 0x34, 0x12] = .ok (.sei, [0x34, 0x12]) ∧
    decode [0xEA, 0x34, 0x12] = .ok (.nop, [0x34, 0x12]) :=
  ⟨rfl, rfl, rfl, rfl, rfl, rfl, rfl, rfl⟩

theorem test_encode :
    encode (.ldaAbs 0x1234) = [0xAD, 0x34, 0x12] ∧ encode (.ldxZpy 0xF0) = [0xB6, 0xF0] ∧ encode .aslAcc = [0x0A] ∧
    encode (.bcc 0xFD) = [0x90, 0xFD] ∧ encode (.aslAbx 0x12FF) = [0x1E, 0xFF, 0x12] := by decide

theorem test_decode_rejects_by_name :
    decode [] = .error .noBytes ∧ decode [0x00, 0x34, 0x12] = .error (.unassigned 0x00) ∧
    decode [0xFF] = .error (.unassigned 0xFF) ∧ decode [0xA9] = .error (.truncated 0xA9) ∧
    decode [0xAD, 0x34] = .error (.truncated 0xAD) := ⟨rfl, rfl, rfl, rfl, rfl⟩

/-- The table's numbering: bits 7:0 are the opcode, the bits above `nbits` are 0 (R51). -/
theorem test_decode_table_word :
    decodeTableWord 24 0x1234AD = some (.ldaAbs 0x1234) ∧ decodeTableWord 8 0xFFA9 = some (.ldaImm 0x00) ∧
    decodeTableWord 16 0x1090 = some (.bcc 0x10) ∧ decodeTableWord 8 0x02 = none := by decide

/-- The placed word is what the next step runs; here `SEC` right after reset. -/
theorem test_with_fetch_word :
    stepsTo (State.reset.withFetchWord 8 0x38) ⟨0, 0, 0, 0, 0x0001, 0x21⟩ [] 2 [.rd 0x0000] = true := by decide

/-! ### Single steps: the vectors of 95_test_vectors.md -/

/-- V1: `LDA #$80`. -/
theorem test_ldaImm_v1 : stepsTo (placed ⟨0x00, 0x00, 0x00, 0x00, 0x0400, 0x20⟩ [0xA9, 0x80] [])
    ⟨0x80, 0x00, 0x00, 0x00, 0x0402, 0xA0⟩ [] 2 [.rd 0x0400, .rd 0x0401] = true := by decide

/-- V20: `LDA #$00`. -/
theorem test_ldaImm_v20 : stepsTo (placed ⟨0x55, 0x00, 0x00, 0x00, 0x0200, 0xED⟩ [0xA9, 0x00] [])
    ⟨0x00, 0x00, 0x00, 0x00, 0x0202, 0x6F⟩ [] 2 [.rd 0x0200, .rd 0x0201] = true := by decide

/-- V2: `LDA $10`. -/
theorem test_ldaZp_v2 : stepsTo (placed ⟨0x00, 0x00, 0x00, 0x00, 0x0400, 0x20⟩ [0xA5, 0x10] [(0x0010, 0x7F)])
    ⟨0x7F, 0x00, 0x00, 0x00, 0x0402, 0x20⟩ [] 3 [.rd 0x0400, .rd 0x0401, .rd 0x0010] = true := by decide

/-- V3: `LDA $FF,X`. -/
theorem test_ldaZpx_v3 : stepsTo (placed ⟨0x00, 0x02, 0x00, 0x00, 0x0400, 0x20⟩ [0xB5, 0xFF] [(0x0001, 0x55), (0x0101, 0xAA)])
    ⟨0x55, 0x02, 0x00, 0x00, 0x0402, 0x20⟩ [] 4 [.rd 0x0400, .rd 0x0401, .rd 0x0001] = true := by decide

/-- V5: `LDA $1234`. -/
theorem test_ldaAbs_v5 : stepsTo (placed ⟨0x11, 0x00, 0x00, 0x00, 0x0400, 0x20⟩ [0xAD, 0x34, 0x12] [(0x1234, 0x00)])
    ⟨0x00, 0x00, 0x00, 0x00, 0x0403, 0x22⟩ [] 4 [.rd 0x0400, .rd 0x0401, .rd 0x0402, .rd 0x1234] = true := by decide

/-- V15: `LDA $1234 (at 0xFFFE)`. -/
theorem test_ldaAbs_v15 : stepsTo (placed ⟨0x00, 0x00, 0x00, 0x00, 0xFFFE, 0x20⟩ [0xAD, 0x34, 0x12] [(0x1234, 0x0C)])
    ⟨0x0C, 0x00, 0x00, 0x00, 0x0001, 0x20⟩ [] 4 [.rd 0xFFFE, .rd 0xFFFF, .rd 0x0000, .rd 0x1234] = true := by decide

/-- V6: `LDA $04FF,X`. -/
theorem test_ldaAbx_v6 : stepsTo (placed ⟨0x00, 0x01, 0x00, 0x00, 0x0600, 0x20⟩ [0xBD, 0xFF, 0x04] [(0x0500, 0x42)])
    ⟨0x42, 0x01, 0x00, 0x00, 0x0603, 0x20⟩ [] 5 [.rd 0x0600, .rd 0x0601, .rd 0x0602, .rd 0x0500] = true := by decide

/-- V7: `LDA $0401,X`. -/
theorem test_ldaAbx_v7 : stepsTo (placed ⟨0x00, 0x01, 0x00, 0x00, 0x0600, 0x20⟩ [0xBD, 0x01, 0x04] [(0x0402, 0x42)])
    ⟨0x42, 0x01, 0x00, 0x00, 0x0603, 0x20⟩ [] 4 [.rd 0x0600, .rd 0x0601, .rd 0x0602, .rd 0x0402] = true := by decide

/-- V8: `LDA $FFFF,Y`. -/
theorem test_ldaAby_v8 : stepsTo (placed ⟨0x00, 0x00, 0x02, 0x00, 0x0600, 0x20⟩ [0xB9, 0xFF, 0xFF] [(0x0001, 0x99), (0x0000, 0x11)])
    ⟨0x99, 0x00, 0x02, 0x00, 0x0603, 0xA0⟩ [] 5 [.rd 0x0600, .rd 0x0601, .rd 0x0602, .rd 0x0001] = true := by decide

/-- V9: `LDA ($FE,X)`. -/
theorem test_ldaIzx_v9 : stepsTo (placed ⟨0x00, 0x01, 0x00, 0x00, 0x0600, 0x20⟩ [0xA1, 0xFE] [(0x00FF, 0x34), (0x0000, 0x12), (0x0100, 0x77), (0x1234, 0xC3), (0x7734, 0x01)])
    ⟨0xC3, 0x01, 0x00, 0x00, 0x0602, 0xA0⟩ [] 6 [.rd 0x0600, .rd 0x0601, .rd 0x00FF, .rd 0x0000, .rd 0x1234] = true := by decide

/-- V10: `LDA ($20,X)`. -/
theorem test_ldaIzx_v10 : stepsTo (placed ⟨0x00, 0x04, 0x00, 0x00, 0x0600, 0x20⟩ [0xA1, 0x20] [(0x0024, 0x00), (0x0025, 0x03), (0x0300, 0x5A)])
    ⟨0x5A, 0x04, 0x00, 0x00, 0x0602, 0x20⟩ [] 6 [.rd 0x0600, .rd 0x0601, .rd 0x0024, .rd 0x0025, .rd 0x0300] = true := by decide

/-- V11: `LDA ($FF),Y`. -/
theorem test_ldaIzy_v11 : stepsTo (placed ⟨0x00, 0x00, 0x10, 0x00, 0x0600, 0x20⟩ [0xB1, 0xFF] [(0x00FF, 0xF0), (0x0000, 0x02), (0x0100, 0x09), (0x0300, 0x6B), (0x0A00, 0x01)])
    ⟨0x6B, 0x00, 0x10, 0x00, 0x0602, 0x20⟩ [] 6 [.rd 0x0600, .rd 0x0601, .rd 0x00FF, .rd 0x0000, .rd 0x0300] = true := by decide

/-- V13: `LDA ($40),Y`. -/
theorem test_ldaIzy_v13 : stepsTo (placed ⟨0x00, 0x00, 0x01, 0x00, 0x0600, 0x20⟩ [0xB1, 0x40] [(0x0040, 0xFF), (0x0041, 0xFF), (0x0000, 0x21)])
    ⟨0x21, 0x00, 0x01, 0x00, 0x0602, 0x20⟩ [] 6 [.rd 0x0600, .rd 0x0601, .rd 0x0040, .rd 0x0041, .rd 0x0000] = true := by decide

/-- V23: `LDX #$00`. -/
theorem test_ldxImm_v23 : stepsTo (placed ⟨0x00, 0x09, 0x00, 0x00, 0x0200, 0xA0⟩ [0xA2, 0x00] [])
    ⟨0x00, 0x00, 0x00, 0x00, 0x0202, 0x22⟩ [] 2 [.rd 0x0200, .rd 0x0201] = true := by decide

/-- V29: `LDX $20`. -/
theorem test_ldxZp_v29 : stepsTo (placed ⟨0x00, 0x00, 0x00, 0x00, 0x0200, 0x20⟩ [0xA6, 0x20] [(0x0020, 0x80)])
    ⟨0x00, 0x80, 0x00, 0x00, 0x0202, 0xA0⟩ [] 3 [.rd 0x0200, .rd 0x0201, .rd 0x0020] = true := by decide

/-- V4: `LDX $FF,Y`. -/
theorem test_ldxZpy_v4 : stepsTo (placed ⟨0x00, 0x00, 0x01, 0x00, 0x0400, 0x20⟩ [0xB6, 0xFF] [(0x0000, 0x33), (0x0100, 0xCC)])
    ⟨0x00, 0x33, 0x01, 0x00, 0x0402, 0x20⟩ [] 4 [.rd 0x0400, .rd 0x0401, .rd 0x0000] = true := by decide

/-- V30: `LDX $1234`. -/
theorem test_ldxAbs_v30 : stepsTo (placed ⟨0x00, 0x00, 0x00, 0x00, 0x0200, 0x20⟩ [0xAE, 0x34, 0x12] [(0x1234, 0x12)])
    ⟨0x00, 0x12, 0x00, 0x00, 0x0203, 0x20⟩ [] 4 [.rd 0x0200, .rd 0x0201, .rd 0x0202, .rd 0x1234] = true := by decide

/-- V24: `LDX $0300,Y`. -/
theorem test_ldxAby_v24 : stepsTo (placed ⟨0x00, 0x00, 0xFF, 0x00, 0x0200, 0x20⟩ [0xBE, 0x00, 0x03] [(0x03FF, 0xFF)])
    ⟨0x00, 0xFF, 0xFF, 0x00, 0x0203, 0xA0⟩ [] 4 [.rd 0x0200, .rd 0x0201, .rd 0x0202, .rd 0x03FF] = true := by decide

/-- V25: `LDX $03FF,Y`. -/
theorem test_ldxAby_v25 : stepsTo (placed ⟨0x00, 0x00, 0x01, 0x00, 0x0200, 0xA2⟩ [0xBE, 0xFF, 0x03] [(0x0400, 0x01)])
    ⟨0x00, 0x01, 0x01, 0x00, 0x0203, 0x20⟩ [] 5 [.rd 0x0200, .rd 0x0201, .rd 0x0202, .rd 0x0400] = true := by decide

/-- V26: `LDY #$FF`. -/
theorem test_ldyImm_v26 : stepsTo (placed ⟨0x00, 0x00, 0x00, 0x00, 0x0200, 0x20⟩ [0xA0, 0xFF] [])
    ⟨0x00, 0x00, 0xFF, 0x00, 0x0202, 0xA0⟩ [] 2 [.rd 0x0200, .rd 0x0201] = true := by decide

/-- V28: `LDY $10`. -/
theorem test_ldyZp_v28 : stepsTo (placed ⟨0x00, 0x00, 0x00, 0x00, 0x0200, 0x20⟩ [0xA4, 0x10] [(0x0010, 0x40)])
    ⟨0x00, 0x00, 0x40, 0x00, 0x0202, 0x20⟩ [] 3 [.rd 0x0200, .rd 0x0201, .rd 0x0010] = true := by decide

/-- V14: `LDY $80,X`. -/
theorem test_ldyZpx_v14 : stepsTo (placed ⟨0x00, 0xFF, 0x00, 0x00, 0x0600, 0x20⟩ [0xB4, 0x80] [(0x007F, 0xFE)])
    ⟨0x00, 0xFF, 0xFE, 0x00, 0x0602, 0xA0⟩ [] 4 [.rd 0x0600, .rd 0x0601, .rd 0x007F] = true := by decide

/-- V31: `LDY $1234`. -/
theorem test_ldyAbs_v31 : stepsTo (placed ⟨0x00, 0x00, 0x01, 0x00, 0x0200, 0x20⟩ [0xAC, 0x34, 0x12] [(0x1234, 0x00)])
    ⟨0x00, 0x00, 0x00, 0x00, 0x0203, 0x22⟩ [] 4 [.rd 0x0200, .rd 0x0201, .rd 0x0202, .rd 0x1234] = true := by decide

/-- V27: `LDY $0300,X`. -/
theorem test_ldyAbx_v27 : stepsTo (placed ⟨0x00, 0x10, 0x07, 0x00, 0x0200, 0x20⟩ [0xBC, 0x00, 0x03] [(0x0310, 0x00)])
    ⟨0x00, 0x10, 0x00, 0x00, 0x0203, 0x22⟩ [] 4 [.rd 0x0200, .rd 0x0201, .rd 0x0202, .rd 0x0310] = true := by decide

/-- V40: `ADC #$01`. -/
theorem test_adcImm_v40 : stepsTo (placed ⟨0x7F, 0x00, 0x00, 0x00, 0x0200, 0x20⟩ [0x69, 0x01] [])
    ⟨0x80, 0x00, 0x00, 0x00, 0x0202, 0xE0⟩ [] 2 [.rd 0x0200, .rd 0x0201] = true := by decide

/-- V44: `ADC #$80`. -/
theorem test_adcImm_v44 : stepsTo (placed ⟨0x80, 0x00, 0x00, 0x00, 0x0200, 0x20⟩ [0x69, 0x80] [])
    ⟨0x00, 0x00, 0x00, 0x00, 0x0202, 0x63⟩ [] 2 [.rd 0x0200, .rd 0x0201] = true := by decide

/-- V55: `ADC $10`. -/
theorem test_adcZp_v55 : stepsTo (placed ⟨0x11, 0x00, 0x00, 0x00, 0x0200, 0x20⟩ [0x65, 0x10] [(0x0010, 0x22)])
    ⟨0x33, 0x00, 0x00, 0x00, 0x0202, 0x20⟩ [] 3 [.rd 0x0200, .rd 0x0201, .rd 0x0010] = true := by decide

/-- V56: `ADC $F0,X`. -/
theorem test_adcZpx_v56 : stepsTo (placed ⟨0xFE, 0x15, 0x00, 0x00, 0x0200, 0x21⟩ [0x75, 0xF0] [(0x0005, 0x01)])
    ⟨0x00, 0x15, 0x00, 0x00, 0x0202, 0x23⟩ [] 4 [.rd 0x0200, .rd 0x0201, .rd 0x0005] = true := by decide

/-- V57: `ADC $1234`. -/
theorem test_adcAbs_v57 : stepsTo (placed ⟨0x80, 0x00, 0x00, 0x00, 0x0200, 0x21⟩ [0x6D, 0x34, 0x12] [(0x1234, 0x80)])
    ⟨0x01, 0x00, 0x00, 0x00, 0x0203, 0x61⟩ [] 4 [.rd 0x0200, .rd 0x0201, .rd 0x0202, .rd 0x1234] = true := by decide

/-- V58: `ADC $12F0,X`. -/
theorem test_adcAbx_v58 : stepsTo (placed ⟨0x10, 0x10, 0x00, 0x00, 0x0200, 0x20⟩ [0x7D, 0xF0, 0x12] [(0x1300, 0x10)])
    ⟨0x20, 0x10, 0x00, 0x00, 0x0203, 0x20⟩ [] 5 [.rd 0x0200, .rd 0x0201, .rd 0x0202, .rd 0x1300] = true := by decide

/-- V59: `ADC $1200,Y`. -/
theorem test_adcAby_v59 : stepsTo (placed ⟨0x7F, 0x00, 0x20, 0x00, 0x0200, 0x20⟩ [0x79, 0x00, 0x12] [(0x1220, 0x7F)])
    ⟨0xFE, 0x00, 0x20, 0x00, 0x0203, 0xE0⟩ [] 4 [.rd 0x0200, .rd 0x0201, .rd 0x0202, .rd 0x1220] = true := by decide

/-- V60: `ADC ($10,X)`. -/
theorem test_adcIzx_v60 : stepsTo (placed ⟨0x05, 0x02, 0x00, 0x00, 0x0200, 0x20⟩ [0x61, 0x10] [(0x0012, 0x00), (0x0013, 0x20), (0x2000, 0x05)])
    ⟨0x0A, 0x02, 0x00, 0x00, 0x0202, 0x20⟩ [] 6 [.rd 0x0200, .rd 0x0201, .rd 0x0012, .rd 0x0013, .rd 0x2000] = true := by decide

/-- V61: `ADC ($10),Y`. -/
theorem test_adcIzy_v61 : stepsTo (placed ⟨0x02, 0x00, 0x80, 0x00, 0x0200, 0x21⟩ [0x71, 0x10] [(0x0010, 0x80), (0x0011, 0x20), (0x2100, 0xFF)])
    ⟨0x02, 0x00, 0x80, 0x00, 0x0202, 0x21⟩ [] 6 [.rd 0x0200, .rd 0x0201, .rd 0x0010, .rd 0x0011, .rd 0x2100] = true := by decide

/-- V70: `AND #$0F`. -/
theorem test_andImm_v70 : stepsTo (placed ⟨0xF0, 0x00, 0x00, 0x00, 0x0200, 0xE1⟩ [0x29, 0x0F] [])
    ⟨0x00, 0x00, 0x00, 0x00, 0x0202, 0x63⟩ [] 2 [.rd 0x0200, .rd 0x0201] = true := by decide

/-- V71: `AND #$FF`. -/
theorem test_andImm_v71 : stepsTo (placed ⟨0x80, 0x00, 0x00, 0x00, 0x0200, 0x22⟩ [0x29, 0xFF] [])
    ⟨0x80, 0x00, 0x00, 0x00, 0x0202, 0xA0⟩ [] 2 [.rd 0x0200, .rd 0x0201] = true := by decide

/-- V74: `AND $10`. -/
theorem test_andZp_v74 : stepsTo (placed ⟨0xCC, 0x00, 0x00, 0x00, 0x0200, 0x20⟩ [0x25, 0x10] [(0x0010, 0xAA)])
    ⟨0x88, 0x00, 0x00, 0x00, 0x0202, 0xA0⟩ [] 3 [.rd 0x0200, .rd 0x0201, .rd 0x0010] = true := by decide

/-- V75: `AND $10,X`. -/
theorem test_andZpx_v75 : stepsTo (placed ⟨0x03, 0xFF, 0x00, 0x00, 0x0200, 0x20⟩ [0x35, 0x10] [(0x000F, 0x01)])
    ⟨0x01, 0xFF, 0x00, 0x00, 0x0202, 0x20⟩ [] 4 [.rd 0x0200, .rd 0x0201, .rd 0x000F] = true := by decide

/-- V76: `AND $1234`. -/
theorem test_andAbs_v76 : stepsTo (placed ⟨0xAA, 0x00, 0x00, 0x00, 0x0200, 0x20⟩ [0x2D, 0x34, 0x12] [(0x1234, 0x55)])
    ⟨0x00, 0x00, 0x00, 0x00, 0x0203, 0x22⟩ [] 4 [.rd 0x0200, .rd 0x0201, .rd 0x0202, .rd 0x1234] = true := by decide

/-- V77: `AND $12FF,X`. -/
theorem test_andAbx_v77 : stepsTo (placed ⟨0x9F, 0x01, 0x00, 0x00, 0x0200, 0x20⟩ [0x3D, 0xFF, 0x12] [(0x1300, 0xF0)])
    ⟨0x90, 0x01, 0x00, 0x00, 0x0203, 0xA0⟩ [] 5 [.rd 0x0200, .rd 0x0201, .rd 0x0202, .rd 0x1300] = true := by decide

/-- V78: `AND $1200,Y`. -/
theorem test_andAby_v78 : stepsTo (placed ⟨0x81, 0x00, 0x01, 0x00, 0x0200, 0x20⟩ [0x39, 0x00, 0x12] [(0x1201, 0x81)])
    ⟨0x81, 0x00, 0x01, 0x00, 0x0203, 0xA0⟩ [] 4 [.rd 0x0200, .rd 0x0201, .rd 0x0202, .rd 0x1201] = true := by decide

/-- V79: `AND ($10,X)`. -/
theorem test_andIzx_v79 : stepsTo (placed ⟨0x0F, 0x00, 0x00, 0x00, 0x0200, 0x20⟩ [0x21, 0x10] [(0x0010, 0x34), (0x0011, 0x12), (0x1234, 0x3C)])
    ⟨0x0C, 0x00, 0x00, 0x00, 0x0202, 0x20⟩ [] 6 [.rd 0x0200, .rd 0x0201, .rd 0x0010, .rd 0x0011, .rd 0x1234] = true := by decide

/-- V80: `AND ($10),Y`. -/
theorem test_andIzy_v80 : stepsTo (placed ⟨0x01, 0x00, 0x01, 0x00, 0x0200, 0x20⟩ [0x31, 0x10] [(0x0010, 0xFF), (0x0011, 0x12), (0x1300, 0x01)])
    ⟨0x01, 0x00, 0x01, 0x00, 0x0202, 0x20⟩ [] 6 [.rd 0x0200, .rd 0x0201, .rd 0x0010, .rd 0x0011, .rd 0x1300] = true := by decide

/-- V91: `ASL A`. -/
theorem test_aslAcc_v91 : stepsTo (placed ⟨0x80, 0x00, 0x00, 0x00, 0x0200, 0xE0⟩ [0x0A] [])
    ⟨0x00, 0x00, 0x00, 0x00, 0x0201, 0x63⟩ [] 2 [.rd 0x0200] = true := by decide

/-- V94: `ASL A`. -/
theorem test_aslAcc_v94 : stepsTo (placed ⟨0xFF, 0x00, 0x00, 0x00, 0x0200, 0x20⟩ [0x0A] [])
    ⟨0xFE, 0x00, 0x00, 0x00, 0x0201, 0xA1⟩ [] 2 [.rd 0x0200] = true := by decide

/-- V96: `ASL $10`. -/
theorem test_aslZp_v96 : stepsTo (placed ⟨0x77, 0x00, 0x00, 0x00, 0x0200, 0x20⟩ [0x06, 0x10] [(0x0010, 0x81)])
    ⟨0x77, 0x00, 0x00, 0x00, 0x0202, 0x21⟩ [(0x0010, 0x02)] 5 [.rd 0x0200, .rd 0x0201, .rd 0x0010, .wr 0x0010] = true := by decide

/-- V97: `ASL $FF,X`. -/
theorem test_aslZpx_v97 : stepsTo (placed ⟨0x00, 0x01, 0x00, 0x00, 0x0200, 0x20⟩ [0x16, 0xFF] [(0x0000, 0x40), (0x0100, 0x01)])
    ⟨0x00, 0x01, 0x00, 0x00, 0x0202, 0xA0⟩ [(0x0000, 0x80), (0x0100, 0x01)] 6 [.rd 0x0200, .rd 0x0201, .rd 0x0000, .wr 0x0000] = true := by decide

/-- V98: `ASL $1234`. -/
theorem test_aslAbs_v98 : stepsTo (placed ⟨0x00, 0x00, 0x00, 0x00, 0x0200, 0x20⟩ [0x0E, 0x34, 0x12] [(0x1234, 0x80)])
    ⟨0x00, 0x00, 0x00, 0x00, 0x0203, 0x23⟩ [(0x1234, 0x00)] 6 [.rd 0x0200, .rd 0x0201, .rd 0x0202, .rd 0x1234, .wr 0x1234] = true := by decide

/-- V101: `ASL $0200 (self-modifying)`. -/
theorem test_aslAbs_v101 : stepsTo (placed ⟨0x00, 0x00, 0x00, 0x00, 0x0200, 0x20⟩ [0x0E, 0x00, 0x02] [])
    ⟨0x00, 0x00, 0x00, 0x00, 0x0203, 0x20⟩ [(0x0200, 0x1C)] 6 [.rd 0x0200, .rd 0x0201, .rd 0x0202, .rd 0x0200, .wr 0x0200] = true := by decide

/-- V99: `ASL $12FF,X`. -/
theorem test_aslAbx_v99 : stepsTo (placed ⟨0x00, 0x01, 0x00, 0x00, 0x0200, 0x20⟩ [0x1E, 0xFF, 0x12] [(0x1300, 0x55)])
    ⟨0x00, 0x01, 0x00, 0x00, 0x0203, 0xA0⟩ [(0x1300, 0xAA)] 7 [.rd 0x0200, .rd 0x0201, .rd 0x0202, .rd 0x1300, .wr 0x1300] = true := by decide

/-- V100: `ASL $1200,X`. -/
theorem test_aslAbx_v100 : stepsTo (placed ⟨0x00, 0x01, 0x00, 0x00, 0x0200, 0x22⟩ [0x1E, 0x00, 0x12] [(0x1201, 0xC0)])
    ⟨0x00, 0x01, 0x00, 0x00, 0x0203, 0xA1⟩ [(0x1201, 0x80)] 7 [.rd 0x0200, .rd 0x0201, .rd 0x0202, .rd 0x1201, .wr 0x1201] = true := by decide

/-- V112: `BCC $00D2`. -/
theorem test_bcc_v112 : stepsTo (placed ⟨0x00, 0x00, 0x00, 0x00, 0x00C0, 0x20⟩ [0x90, 0x10] [])
    ⟨0x00, 0x00, 0x00, 0x00, 0x00D2, 0x20⟩ [] 3 [.rd 0x00C0, .rd 0x00C1] = true := by decide

/-- V133: `BCC $00FF (opcode 00FE, -1)`. -/
theorem test_bcc_v133 : stepsTo (placed ⟨0x00, 0x00, 0x00, 0x00, 0x00FE, 0x20⟩ [0x90, 0xFF] [])
    ⟨0x00, 0x00, 0x00, 0x00, 0x00FF, 0x20⟩ [] 4 [.rd 0x00FE, .rd 0x00FF] = true := by decide

/-- V115: `BCS $0014`. -/
theorem test_bcs_v115 : stepsTo (placed ⟨0x00, 0x00, 0x00, 0x00, 0x0010, 0x21⟩ [0xB0, 0x02] [])
    ⟨0x00, 0x00, 0x00, 0x00, 0x0014, 0x21⟩ [] 3 [.rd 0x0010, .rd 0x0011] = true := by decide

/-- V116: `BCS (not taken)`. -/
theorem test_bcs_v116 : stepsTo (placed ⟨0x00, 0x00, 0x00, 0x00, 0x0010, 0x20⟩ [0xB0, 0x02] [])
    ⟨0x00, 0x00, 0x00, 0x00, 0x0012, 0x20⟩ [] 2 [.rd 0x0010, .rd 0x0011] = true := by decide

/-- V117: `BEQ $0004`. -/
theorem test_beq_v117 : stepsTo (placed ⟨0x00, 0x00, 0x00, 0x00, 0xFFFC, 0x22⟩ [0xF0, 0x06] [])
    ⟨0x00, 0x00, 0x00, 0x00, 0x0004, 0x22⟩ [] 4 [.rd 0xFFFC, .rd 0xFFFD] = true := by decide

/-- V118: `BEQ (not taken)`. -/
theorem test_beq_v118 : stepsTo (placed ⟨0x00, 0x00, 0x00, 0x00, 0xFFFC, 0x20⟩ [0xF0, 0x06] [])
    ⟨0x00, 0x00, 0x00, 0x00, 0xFFFE, 0x20⟩ [] 2 [.rd 0xFFFC, .rd 0xFFFD] = true := by decide

/-- V119: `BMI $02FE`. -/
theorem test_bmi_v119 : stepsTo (placed ⟨0x00, 0x00, 0x00, 0x00, 0x0300, 0xA0⟩ [0x30, 0xFC] [])
    ⟨0x00, 0x00, 0x00, 0x00, 0x02FE, 0xA0⟩ [] 4 [.rd 0x0300, .rd 0x0301] = true := by decide

/-- V120: `BMI (not taken)`. -/
theorem test_bmi_v120 : stepsTo (placed ⟨0x00, 0x00, 0x00, 0x00, 0x0300, 0x20⟩ [0x30, 0xFC] [])
    ⟨0x00, 0x00, 0x00, 0x00, 0x0302, 0x20⟩ [] 2 [.rd 0x0300, .rd 0x0301] = true := by decide

/-- V121: `BNE $0040`. -/
theorem test_bne_v121 : stepsTo (placed ⟨0x00, 0x00, 0x00, 0x00, 0x0040, 0x20⟩ [0xD0, 0xFE] [])
    ⟨0x00, 0x00, 0x00, 0x00, 0x0040, 0x20⟩ [] 3 [.rd 0x0040, .rd 0x0041] = true := by decide

/-- V122: `BNE (not taken)`. -/
theorem test_bne_v122 : stepsTo (placed ⟨0x00, 0x00, 0x00, 0x00, 0x0040, 0x22⟩ [0xD0, 0xFE] [])
    ⟨0x00, 0x00, 0x00, 0x00, 0x0042, 0x22⟩ [] 2 [.rd 0x0040, .rd 0x0041] = true := by decide

/-- V123: `BPL $000D`. -/
theorem test_bpl_v123 : stepsTo (placed ⟨0x00, 0x00, 0x00, 0x00, 0x000A, 0x20⟩ [0x10, 0x01] [])
    ⟨0x00, 0x00, 0x00, 0x00, 0x000D, 0x20⟩ [] 3 [.rd 0x000A, .rd 0x000B] = true := by decide

/-- V134: `BPL $0200 (opcode 01FE, +0)`. -/
theorem test_bpl_v134 : stepsTo (placed ⟨0x00, 0x00, 0x00, 0x00, 0x01FE, 0x20⟩ [0x10, 0x00] [])
    ⟨0x00, 0x00, 0x00, 0x00, 0x0200, 0x20⟩ [] 3 [.rd 0x01FE, .rd 0x01FF] = true := by decide

/-- V125: `BVC $0181`. -/
theorem test_bvc_v125 : stepsTo (placed ⟨0x00, 0x00, 0x00, 0x00, 0x0100, 0x20⟩ [0x50, 0x7F] [])
    ⟨0x00, 0x00, 0x00, 0x00, 0x0181, 0x20⟩ [] 3 [.rd 0x0100, .rd 0x0101] = true := by decide

/-- V126: `BVC (not taken)`. -/
theorem test_bvc_v126 : stepsTo (placed ⟨0x00, 0x00, 0x00, 0x00, 0x0100, 0x60⟩ [0x50, 0x7F] [])
    ⟨0x00, 0x00, 0x00, 0x00, 0x0102, 0x60⟩ [] 2 [.rd 0x0100, .rd 0x0101] = true := by decide

/-- V127: `BVS $0082`. -/
theorem test_bvs_v127 : stepsTo (placed ⟨0x00, 0x00, 0x00, 0x00, 0x0100, 0x60⟩ [0x70, 0x80] [])
    ⟨0x00, 0x00, 0x00, 0x00, 0x0082, 0x60⟩ [] 4 [.rd 0x0100, .rd 0x0101] = true := by decide

/-- V128: `BVS (not taken)`. -/
theorem test_bvs_v128 : stepsTo (placed ⟨0x00, 0x00, 0x00, 0x00, 0x0100, 0x20⟩ [0x70, 0x80] [])
    ⟨0x00, 0x00, 0x00, 0x00, 0x0102, 0x20⟩ [] 2 [.rd 0x0100, .rd 0x0101] = true := by decide

/-- V140: `CLC`. -/
theorem test_clc_v140 : stepsTo (placed ⟨0x00, 0x00, 0x00, 0x00, 0x0200, 0xEF⟩ [0x18] [])
    ⟨0x00, 0x00, 0x00, 0x00, 0x0201, 0xEE⟩ [] 2 [.rd 0x0200] = true := by decide

/-- V144: `CLD`. -/
theorem test_cld_v144 : stepsTo (placed ⟨0x00, 0x00, 0x00, 0x00, 0x0200, 0xEF⟩ [0xD8] [])
    ⟨0x00, 0x00, 0x00, 0x00, 0x0201, 0xE7⟩ [] 2 [.rd 0x0200] = true := by decide

/-- V146: `CLI`. -/
theorem test_cli_v146 : stepsTo (placed ⟨0x00, 0x00, 0x00, 0x00, 0x0200, 0xEF⟩ [0x58] [])
    ⟨0x00, 0x00, 0x00, 0x00, 0x0201, 0xEB⟩ [] 2 [.rd 0x0200] = true := by decide

/-- V148: `CLV`. -/
theorem test_clv_v148 : stepsTo (placed ⟨0x00, 0x00, 0x00, 0x00, 0x0200, 0xEF⟩ [0xB8] [])
    ⟨0x00, 0x00, 0x00, 0x00, 0x0201, 0xAF⟩ [] 2 [.rd 0x0200] = true := by decide

/-- V142: `SEC`. -/
theorem test_sec_v142 : stepsTo (placed ⟨0x00, 0x00, 0x00, 0x00, 0x0200, 0x20⟩ [0x38] [])
    ⟨0x00, 0x00, 0x00, 0x00, 0x0201, 0x21⟩ [] 2 [.rd 0x0200] = true := by decide

/-- V145: `SED`. -/
theorem test_sed_v145 : stepsTo (placed ⟨0x00, 0x00, 0x00, 0x00, 0x0200, 0x20⟩ [0xF8] [])
    ⟨0x00, 0x00, 0x00, 0x00, 0x0201, 0x28⟩ [] 2 [.rd 0x0200] = true := by decide

/-- V147: `SEI`. -/
theorem test_sei_v147 : stepsTo (placed ⟨0x00, 0x00, 0x00, 0x00, 0x0200, 0x20⟩ [0x78] [])
    ⟨0x00, 0x00, 0x00, 0x00, 0x0201, 0x24⟩ [] 2 [.rd 0x0200] = true := by decide

/-- V150: `NOP`. -/
theorem test_nop_v150 : stepsTo (placed ⟨0x01, 0x02, 0x03, 0x04, 0x0200, 0xEF⟩ [0xEA] [])
    ⟨0x01, 0x02, 0x03, 0x04, 0x0201, 0xEF⟩ [] 2 [.rd 0x0200] = true := by decide

/-- V151: `NOP (at 0xFFFF)`. -/
theorem test_nop_v151 : stepsTo (placed ⟨0x00, 0x00, 0x00, 0x00, 0xFFFF, 0x20⟩ [0xEA] [])
    ⟨0x00, 0x00, 0x00, 0x00, 0x0000, 0x20⟩ [] 2 [.rd 0xFFFF] = true := by decide

/-- V49 (decimal flag set, result binary), V46 and V52 (stale flags recomputed, the carry-in taking part in V). -/
theorem test_adc_decimal_and_carry :
    stepsTo (placed ⟨0x09, 0, 0, 0, 0x0200, 0x28⟩ [0x69, 0x01] []) ⟨0x0A, 0, 0, 0, 0x0202, 0x28⟩ [] 2
      [.rd 0x0200, .rd 0x0201] = true ∧
    stepsTo (placed ⟨0x7F, 0, 0, 0, 0x0200, 0x21⟩ [0x69, 0x7F] []) ⟨0xFF, 0, 0, 0, 0x0202, 0xE0⟩ [] 2
      [.rd 0x0200, .rd 0x0201] = true ∧
    stepsTo (placed ⟨0x00, 0, 0, 0, 0x0200, 0xE3⟩ [0x69, 0xFF] []) ⟨0x00, 0, 0, 0, 0x0202, 0x23⟩ [] 2
      [.rd 0x0200, .rd 0x0201] = true := by decide

/-- V130 and V135: the wrap of PC at the top of memory, after and inside a branch. -/
theorem test_branch_wraps :
    stepsTo (placed ⟨0, 0, 0, 0, 0xFFFD, 0x20⟩ [0x90, 0x05] []) ⟨0, 0, 0, 0, 0x0004, 0x20⟩ [] 4
      [.rd 0xFFFD, .rd 0xFFFE] = true ∧
    stepsTo (placed ⟨0, 0, 0, 0, 0xFFFF, 0x20⟩ [0x90, 0x02] []) ⟨0, 0, 0, 0, 0x0003, 0x20⟩ [] 3
      [.rd 0xFFFF, .rd 0x0000] = true := by decide

/-- V160, V163, V164, V166: an unassigned byte is reported with its value; only the opcode byte is read. -/
theorem test_illegal_opcode :
    stopsAt (placed ⟨0x12, 0x34, 0x56, 0x78, 0x0200, 0xE3⟩ [0x00, 0xAA, 0xBB] []) 0x00 = true ∧
    stopsAt (placed ⟨0x12, 0x34, 0x56, 0x78, 0x0200, 0xE3⟩ [0x8D, 0xAA, 0xBB] []) 0x8D = true ∧
    stopsAt (placed ⟨0x12, 0x34, 0x56, 0x78, 0x0200, 0xE3⟩ [0xFF, 0xAA, 0xBB] []) 0xFF = true ∧
    stopsAt (placed ⟨0x12, 0x34, 0x56, 0x78, 0x0200, 0xE3⟩ [0x1A, 0xAA, 0xBB] []) 0x1A = true := by decide

/-- D13: the cycle total wraps modulo 2^32. -/
theorem test_cycle_total_wraps :
    (match execNop { State.reset with cyc := 0xFFFFFFFF } with | .next t => t.cyc | _ => 0) = 1 := by decide

/-- Writing the byte an unlisted cell reads as takes the cell out again; the list stays in rising order (log 1). -/
theorem test_memory_canonical :
    (((⟨[]⟩ : Memory).write 0x0005 0x07).write 0x0003 0x09).cells = [(3, 0x09), (5, 0x07)] ∧
    ((((⟨[]⟩ : Memory).write 0x0005 0x07).write 0x0003 0x09).write 0x0005 0x00).cells = [(3, 0x09)] := by decide

/-- R45, R212, R213: the host's write and load wrap at the top; replacing the registers keeps memory. -/
theorem test_host_access :
    hostRead 0x0000 (hostLoad 0xFFFF [0x11, 0x22] State.reset) = 0x22 ∧
    hostRead 0xFFFF (hostSetRegisters ⟨1, 2, 3, 4, 5, 6⟩ (hostLoad 0xFFFF [0x11, 0x22] State.reset)) = 0x11 := by decide

/-- R181: a run ends where its predicate says; here after one NOP, at PC = 1. -/
theorem test_run_until :
    (match runUntil (fun s => s.pc == 0x0001) 2 (hostLoad 0 [0xEA, 0xEA] State.reset) with
      | .next t => t.pc | _ => 0) = 0x0001 := by decide

/-! ### Witnesses for the hypotheses of the obligations -/

/-- A small launch state: the bytes at 0x0200, registers at reset values otherwise. -/
def at200 (bytes : List Byte) (cells : List (Addr × Byte)) : State :=
  placed ⟨0x00, 0x00, 0x00, 0x00, 0x0200, 0x20⟩ bytes cells

theorem witness_EncodeOfDecodeIsIdentity :
    decode [0xAD, 0x34, 0x12, 0xEA] = .ok (.ldaAbs 0x1234, [0xEA]) ∧ decode [0x18] = .ok (.clc, []) := ⟨rfl, rfl⟩

theorem witness_TableRowsDecodeToTheirInstruction :
    (⟨0xBD, .LDA, .ABX, 4, .ifCrossed⟩ : OpcodeRow) ∈ opcodeTable ∧ ([0xFF, 0x04] : List Byte).length = Format.ABX.operandCount ∧
    (⟨0x0A, .ASL, .ACC, 2, .fixed⟩ : OpcodeRow) ∈ opcodeTable ∧ ([] : List Byte).length = Format.ACC.operandCount := by decide

theorem witness_UnassignedBytesAreRejectedByName :
    lookupOpcode 0x00 = none ∧ lookupOpcode 0xFF = none ∧ lookupOpcode 0xF7 = none ∧ lookupOpcode 0xF9 = none := by decide

theorem witness_LengthFollowsFromTheOpcodeByte :
    decode (0x0A :: []) = .ok (.aslAcc, []) ∧ decode (0xA9 :: [0x00]) = .ok (.ldaImm 0x00, []) ∧
    decode (0x1E :: [0xFF, 0xFF, 0xEA]) = .ok (.aslAbx 0xFFFF, [0xEA]) := ⟨rfl, rfl, rfl⟩

/-- One instruction for each clause: imm8, zp8 in each of its five forms, addr16 in each of its three, rel8. -/
theorem witness_OperandFieldsAreAssembledFromBytes :
    decode [0xA9, 0xFF, 0x00] = .ok (.ldaImm 0xFF, [0x00]) ∧ Instr.operand (.ldaImm 0xFF) = .src (.imm 0xFF) ∧
    decode [0xA5, 0xFF, 0x00] = .ok (.ldaZp 0xFF, [0x00]) ∧ Instr.operand (.ldaZp 0xFF) = .src (.mem (.zp 0xFF)) ∧
    decode [0xB5, 0x00, 0x00] = .ok (.ldaZpx 0x00, [0x00]) ∧ Instr.operand (.ldaZpx 0x00) = .src (.mem (.zpx 0x00)) ∧
    decode [0xB6, 0xFF, 0x00] = .ok (.ldxZpy 0xFF, [0x00]) ∧ Instr.operand (.ldxZpy 0xFF) = .src (.mem (.zpy 0xFF)) ∧
    decode [0xA1, 0xFF, 0x00] = .ok (.ldaIzx 0xFF, [0x00]) ∧ Instr.operand (.ldaIzx 0xFF) = .src (.mem (.izx 0xFF)) ∧
    decode [0xB1, 0xFF, 0x00] = .ok (.ldaIzy 0xFF, [0x00]) ∧ Instr.operand (.ldaIzy 0xFF) = .src (.mem (.izy 0xFF)) ∧
    decode [0xAD, 0x00, 0xFF] = .ok (.ldaAbs 0xFF00, []) ∧ Instr.operand (.ldaAbs 0xFF00) = .src (.mem (.abs 0xFF00)) ∧
    decode [0xBD, 0xFF, 0x00] = .ok (.ldaAbx 0x00FF, []) ∧ Instr.operand (.ldaAbx 0x00FF) = .src (.mem (.abx 0x00FF)) ∧
    decode [0xB9, 0xFF, 0xFF] = .ok (.ldaAby 0xFFFF, []) ∧ Instr.operand (.ldaAby 0xFFFF) = .src (.mem (.aby 0xFFFF)) ∧
    decode [0x90, 0x80, 0x00] = .ok (.bcc 0x80, [0x00]) ∧ Instr.operand (.bcc 0x80) = .rel 0x80 :=
  ⟨rfl, rfl, rfl, rfl, rfl, rfl, rfl, rfl, rfl, rfl, rfl, rfl, rfl, rfl, rfl, rfl, rfl, rfl, rfl, rfl⟩

theorem witness_WriteThenReadRoundTrip : (0xFFFF : Addr) ≠ 0x0000 := by decide

theorem witness_CanonicalMemoriesThatReadAlikeAreEqual :
    ∃ m n : Memory, m.wf = true ∧ n.wf = true ∧ (∀ a, m.read a = n.read a) ∧ m.cells ≠ [] :=
  ⟨⟨[(0, 0x01), (65535, 0xFF)]⟩, ⟨[(0, 0x01), (65535, 0xFF)]⟩, by decide, by decide, fun _ => rfl, by decide⟩

theorem witness_HostAccessIsAnOrdinaryAccess : (0x0000 : Addr) ≠ 0xFFFF := by decide

theorem witness_ImpliedAndAccumulatorForms :
    Instr.clc.operand = .imp ∧ Instr.nop.operand = .imp ∧ Instr.aslAcc.operand = .acc := by decide

theorem witness_ZeroPageFormsStayInPageZero :
    fetch (at200 [0xA5, 0xFF] []) = .ok (.ldaZp 0xFF) ∧ Instr.operand (.ldaZp 0xFF) = .src (.mem (.zp 0xFF)) ∧
    fetch (at200 [0xB5, 0xFF] []) = .ok (.ldaZpx 0xFF) ∧ Instr.operand (.ldaZpx 0xFF) = .src (.mem (.zpx 0xFF)) ∧
    fetch (at200 [0xB6, 0x00] []) = .ok (.ldxZpy 0x00) ∧ Instr.operand (.ldxZpy 0x00) = .src (.mem (.zpy 0x00)) :=
  ⟨rfl, rfl, rfl, rfl, rfl, rfl⟩

/-- The pointer at its last value, 0xFF, and at its wrapped value, 0x00. -/
theorem witness_IndirectXTakesItsPointerFromPageZero :
    255 = ((0xFE : Byte).toNat + (0x01 : Byte).toNat) % 256 ∧ 0 = ((0xFF : Byte).toNat + (0x01 : Byte).toNat) % 256 ∧
    fetch (at200 [0xA1, 0xFE] []) = .ok (.ldaIzx 0xFE) ∧ Instr.operand (.ldaIzx 0xFE) = .src (.mem (.izx 0xFE)) :=
  ⟨rfl, rfl, rfl, rfl⟩

/-- The pointer at 0xFF, whose second byte is at 0x0000. -/
theorem witness_IndirectYAddsYToThePointedBase :
    0xF0 = ((at200 [] [(0x00FF, 0xF0), (0x0000, 0x02)]).mem.read (BitVec.ofNat 16 (0xFF : Byte).toNat)).toNat ∧
    0x02 = ((at200 [] [(0x00FF, 0xF0), (0x0000, 0x02)]).mem.read
      (BitVec.ofNat 16 (((0xFF : Byte).toNat + 1) % 256))).toNat := by decide

theorem witness_LdaLoadsTheOperand :
    ([.ldaImm 0, .ldaZp 0, .ldaZpx 0, .ldaAbs 0, .ldaAbx 0, .ldaAby 0, .ldaIzx 0, .ldaIzy 0] : List Instr).all
      (fun i => i.mnemonic == .LDA) = true := by decide

theorem witness_LdxLoadsTheOperand :
    ([.ldxImm 0, .ldxZp 0, .ldxZpy 0, .ldxAbs 0, .ldxAby 0] : List Instr).all (fun i => i.mnemonic == .LDX) = true := by
  decide

theorem witness_LdyLoadsTheOperand :
    ([.ldyImm 0, .ldyZp 0, .ldyZpx 0, .ldyAbs 0, .ldyAbx 0] : List Instr).all (fun i => i.mnemonic == .LDY) = true := by
  decide

theorem witness_AdcAddsWithCarry :
    ([.adcImm 0, .adcZp 0, .adcZpx 0, .adcAbs 0, .adcAbx 0, .adcAby 0, .adcIzx 0, .adcIzy 0] : List Instr).all
      (fun i => i.mnemonic == .ADC) = true := by decide

theorem witness_AndIsBitwise :
    ([.andImm 0, .andZp 0, .andZpx 0, .andAbs 0, .andAbx 0, .andAby 0, .andIzx 0, .andIzy 0] : List Instr).all
      (fun i => i.mnemonic == .AND) = true := by decide

theorem witness_AslMemoryShiftsTheByteInPlace :
    ([.aslZp 0, .aslZpx 0, .aslAbs 0, .aslAbx 0] : List Instr).all
      (fun i => i.mnemonic == .ASL && i != .aslAcc) = true := by decide

/-- Each branch stands in the table; P = 0xFF and P = 0x00 meet the taken and the untaken clause of each. -/
theorem witness_BranchesFollowTheirFlag :
    (Mnemonic.BCC, Flag.C, false) ∈ branchTable ∧ (Mnemonic.BCS, Flag.C, true) ∈ branchTable ∧
    (Mnemonic.BEQ, Flag.Z, true) ∈ branchTable ∧ (Mnemonic.BMI, Flag.N, true) ∈ branchTable ∧
    (Mnemonic.BNE, Flag.Z, false) ∈ branchTable ∧ (Mnemonic.BPL, Flag.N, false) ∈ branchTable ∧
    (Mnemonic.BVC, Flag.V, false) ∈ branchTable ∧ (Mnemonic.BVS, Flag.V, true) ∈ branchTable ∧
    branchTable.all (fun r => getFlag r.2.1 (if r.2.2 then 0xFF else 0x00) == r.2.2 &&
      getFlag r.2.1 (if r.2.2 then 0x00 else 0xFF) != r.2.2) = true := by decide

theorem witness_BranchesFollowTheirFlag_instructions :
    Instr.mnemonic (.bcc 0x80) = .BCC ∧ Instr.mnemonic (.bcs 0x7F) = .BCS ∧ Instr.mnemonic (.beq 0x00) = .BEQ ∧
    Instr.mnemonic (.bmi 0xFF) = .BMI ∧ Instr.mnemonic (.bne 0xFE) = .BNE ∧ Instr.mnemonic (.bpl 0x01) = .BPL ∧
    Instr.mnemonic (.bvc 0x7F) = .BVC ∧ Instr.mnemonic (.bvs 0x80) = .BVS := by decide

theorem witness_FlagInstructionsWriteOneFlag :
    (Instr.clc, Flag.C, false) ∈ [(Instr.clc, Flag.C, false), (.cld, .D, false), (.cli, .I, false), (.clv, .V, false),
      (.sec, .C, true), (.sed, .D, true), (.sei, .I, true)] := by decide

theorem witness_FlagInstructionsAreIdempotent :
    Instr.sei ∈ [Instr.clc, .cld, .cli, .clv, .sec, .sed, .sei] := by decide

theorem witness_PcAdvancesByTheLength :
    Instr.nop.mnemonic ∉ branchTable.map Prod.fst ∧ Instr.mnemonic (.ldaImm 0xFF) ∉ branchTable.map Prod.fst ∧
    Instr.mnemonic (.aslAbx 0xFFFF) ∉ branchTable.map Prod.fst := by decide

/-- The three clauses: a reading instruction (crossed, and not), ASL, and an instruction without operand. -/
theorem witness_CyclesFollowTheTable :
    (∃ t, exec (.ldaAbx 0x04FF) { State.reset with x := 0x01 } = .next t) ∧
    (resolve (Instr.operand (.ldaAbx 0x04FF)) { State.reset with x := 0x01 }).crossed = true ∧
    (∃ t, exec (.ldaAbx 0x0401) { State.reset with x := 0x01 } = .next t) ∧
    (resolve (Instr.operand (.ldaAbx 0x0401)) { State.reset with x := 0x01 }).crossed = false ∧
    Instr.operand (.ldaAbx 0x04FF) = .src (.mem (.abx 0x04FF)) ∧
    (∃ t, exec (.aslAbx 0x12FF) State.reset = .next t) ∧ Instr.mnemonic (.aslAbx 0x12FF) = .ASL ∧
    (∃ t, exec .nop State.reset = .next t) ∧ Instr.nop.operand = .imp :=
  ⟨⟨_, rfl⟩, rfl, ⟨_, rfl⟩, rfl, rfl, ⟨_, rfl⟩, rfl, ⟨_, rfl⟩, rfl⟩

/-- The least count, 2, and the greatest, 7; and an unassigned byte. -/
theorem witness_ReturnedCyclesAreAddedToTheTotal :
    (∃ t, step (at200 [0xEA] []) = .next t) ∧ stepCycles (at200 [0xEA] []) = some 2 ∧
    (∃ t, step (at200 [0x1E, 0xFF, 0x12] []) = .next t) ∧ stepCycles (at200 [0x1E, 0xFF, 0x12] []) = some 7 ∧
    lookupOpcode (memRead 0x0200 (at200 [0xFF] [])) = none :=
  ⟨⟨_, rfl⟩, by decide, ⟨_, rfl⟩, by decide, by decide⟩

/-- A state that stops and a state that goes on: the two clauses. -/
theorem witness_NothingReadsTheCycleTotal :
    (∃ f, step (at200 [0x00] []) = .fault f) ∧ ∃ t, step (at200 [0x18] []) = .next t := ⟨⟨_, rfl⟩, ⟨_, rfl⟩⟩

theorem witness_StackPointerIsInert :
    (∃ f, step (at200 [0xFF] []) = .fault f) ∧ ∃ t, step (at200 [0xA9, 0x01] []) = .next t := ⟨⟨_, rfl⟩, ⟨_, rfl⟩⟩

/-- One instruction of each length, the last one across the top of memory. -/
theorem witness_StepRunsTheDecodedInstruction :
    decode [memRead 0x0200 (at200 [0x18] []), memRead 0x0201 (at200 [0x18] []), memRead 0x0202 (at200 [0x18] [])] =
      .ok (.clc, [0x00, 0x00]) ∧
    decode [memRead 0xFFFE (placed ⟨0, 0, 0, 0, 0xFFFE, 0x20⟩ [0xAD, 0x34, 0x12] []),
      memRead 0xFFFF (placed ⟨0, 0, 0, 0, 0xFFFE, 0x20⟩ [0xAD, 0x34, 0x12] []),
      memRead 0x0000 (placed ⟨0, 0, 0, 0, 0xFFFE, 0x20⟩ [0xAD, 0x34, 0x12] [])] = .ok (.ldaAbs 0x1234, []) :=
  ⟨rfl, rfl⟩

theorem witness_IllegalOpcodeIsTheOnlyStop :
    lookupOpcode (memRead 0x0200 (at200 [0x02] [])) = none ∧ (∃ f, step (at200 [0x02] []) = .fault f) :=
  ⟨by decide, ⟨_, rfl⟩⟩

/-- The two clauses about memory: ASL on memory, and an instruction that writes none. -/
theorem witness_StepIsTotalAndChangesLittle :
    Instr.mnemonic (.aslZp 0xFF) = .ASL ∧ Instr.operand (.aslZp 0xFF) = .src (.mem (.zp 0xFF)) ∧
    Instr.mnemonic .aslAcc = .ASL ∧ Instr.operand .aslAcc = .acc ∧ Instr.mnemonic (.ldaZp 0) ≠ .ASL := by decide

theorem witness_OnlyAslWritesMemory :
    (∃ t, step (at200 [0x06, 0xFF] [(0x00FF, 0x81)]) = .next t ∧
      t.mem.read 0x00FF ≠ (at200 [0x06, 0xFF] [(0x00FF, 0x81)]).mem.read 0x00FF) ∧
    Access.wr 0x00FF ∈ stepAccesses (at200 [0x06, 0xFF] [(0x00FF, 0x81)]) :=
  ⟨⟨_, rfl, by decide⟩, by decide⟩

/-- An unassigned byte; then the clauses by format: no operand byte, immediate, relative, memory. -/
theorem witness_StepAccessesByFormat :
    lookupOpcode (memRead 0x0200 (at200 [0x00, 0xAA, 0xBB] [])) = none ∧
    fetch (at200 [0x0A] []) = .ok .aslAcc ∧ Instr.aslAcc.format.operandCount = 0 ∧
    fetch (at200 [0xA9, 0xFF] []) = .ok (.ldaImm 0xFF) ∧ Instr.format (.ldaImm 0xFF) = .IMM ∧
    fetch (at200 [0x90, 0xFF] []) = .ok (.bcc 0xFF) ∧ Instr.format (.bcc 0xFF) = .REL ∧
    fetch (at200 [0xB1, 0xFF] []) = .ok (.ldaIzy 0xFF) ∧ Instr.operand (.ldaIzy 0xFF) = .src (.mem (.izy 0xFF)) ∧
    fetch (at200 [0x1E, 0xFF, 0x12] []) = .ok (.aslAbx 0x12FF) ∧
      Instr.operand (.aslAbx 0x12FF) = .src (.mem (.abx 0x12FF)) :=
  ⟨by decide, rfl, rfl, rfl, rfl, rfl, rfl, rfl, rfl, rfl, rfl⟩

/-- An image that holds the bytes read and another byte elsewhere; one address is written and one is not. -/
theorem witness_StepDependsOnlyOnItsListedReads :
    (∀ a, Access.rd a ∈ stepAccesses (at200 [0x06, 0x10] [(0x0010, 0x81)]) →
      (at200 [0x06, 0x10] [(0x0010, 0x81), (0x0300, 0x55)]).mem.read a =
        (at200 [0x06, 0x10] [(0x0010, 0x81)]).mem.read a) ∧
    (at200 [0x06, 0x10] [(0x0010, 0x81), (0x0300, 0x55)]).mem ≠ (at200 [0x06, 0x10] [(0x0010, 0x81)]).mem ∧
    (∃ t, step (at200 [0x06, 0x10] [(0x0010, 0x81)]) = .next t) ∧
    Access.wr 0x0010 ∈ stepAccesses (at200 [0x06, 0x10] [(0x0010, 0x81)]) ∧
    Access.wr 0x0300 ∉ stepAccesses (at200 [0x06, 0x10] [(0x0010, 0x81)]) := by
  refine ⟨fun a h => ?_, by decide, ⟨_, rfl⟩, by decide, by decide⟩
  have h' : Access.rd a ∈ [Access.rd 0x0200, .rd 0x0201, .rd 0x0010, .wr 0x0010] := h
  simp only [List.mem_cons, Access.rd.injEq, reduceCtorEq, List.not_mem_nil, or_false] at h'
  obtain rfl | rfl | rfl := h' <;> decide

/-- The fault clause of the same statement: the opcode byte agrees, and the step reports it. -/
theorem witness_StepDependsOnlyOnItsListedReads_fault :
    stepAccesses (at200 [0x02] []) = [.rd 0x0200] ∧ ∃ f, step (at200 [0x02] []) = .fault f :=
  ⟨by decide, ⟨_, rfl⟩⟩

theorem witness_ResetValues : Flag.C ≠ Flag.U ∧ Flag.N ≠ Flag.U := by decide

/-- An unassigned byte where stepping begins: at the default PC, and at the last address. -/
theorem witness_FirstFetchAfterResetIsAtZero :
    lookupOpcode ((⟨[(0, 0x02)]⟩ : Memory).read Registers.reset.pc) = none ∧
    lookupOpcode ((⟨[(65535, 0xFF)]⟩ : Memory).read (⟨0, 0, 0, 0, 0xFFFF, 0x20⟩ : Registers).pc) = none := by decide

theorem witness_StepKeepsTheInvariant :
    (at200 [0x06, 0x10] [(0x0010, 0x81)]).inv = true ∧ ∃ t, step (at200 [0x06, 0x10] [(0x0010, 0x81)]) = .next t :=
  ⟨by decide, ⟨_, rfl⟩⟩

theorem witness_RunsKeepSpBreakAndBitFive :
    (∃ t, core.run 2 (at200 [0x38, 0x0A] []) = .next t) ∧ (at200 [0x38, 0x0A] []).mem.wf = true :=
  ⟨⟨_, rfl⟩, by decide⟩

/-- Both sides of the statement hold for one step of NOP. -/
theorem witness_SafeRunsUnfoldStepByStep :
    ∃ t, step (at200 [0xEA] []) = .next t ∧ lookupOpcode (memRead 0x0200 (at200 [0xEA] [])) ≠ none ∧ SafeFor 0 t := by
  refine ⟨_, rfl, by decide, fun k hk => ?_⟩
  obtain rfl : k = 0 := Nat.le_zero.mp hk
  exact ⟨_, rfl⟩

end Sys2Proof.Tests
end

section
/-! SUPPORT. The two answers of a step, said once; what fetching depends on; SP in every meaning; and the statements of
the family spec/10_state.md. -/

namespace Sys2Proof.Machine

/-! ### What a step can answer -/

theorem step_of_fetch_ok {s : State} {i : Instr} (h : fetch s = .ok i) : step s = exec i s := by
  simp [step, h]

theorem step_of_lookup_none {s : State} (h : lookupOpcode (opcodeAtPC s) = none) :
    step s = .fault (.illegalOpcode (opcodeAtPC s)) := by
  simp [step, fetch_unassigned h, raiseIllegalOpcode]

/-- Every instruction completes (R180). -/
theorem exec_completes (i : Instr) (s : State) : ∃ t, exec i s = .next t := by
  generalize hg : exec i = g
  cases hg ▸ exec_shape i with
  | branch d f v => exact ⟨_, (branchIf_next_iff _ d s _).2 rfl⟩
  | lda | ldx | ldy | adc | and | aslAcc | aslMem | flag | nop => exact ⟨_, rfl⟩

/-- A step completes exactly as the instruction fetched does (R170). -/
theorem step_next_iff {s t : State} : step s = .next t ↔ ∃ i, fetch s = .ok i ∧ exec i s = .next t := by
  constructor
  · intro h
    cases hl : lookupOpcode (opcodeAtPC s) with
    | none => simp [step_of_lookup_none hl] at h
    | some r =>
      obtain ⟨i, -, hi, -⟩ := fetch_assigned hl
      exact ⟨i, hi, step_of_fetch_ok hi ▸ h⟩
  · rintro ⟨i, hi, he⟩
    rw [step_of_fetch_ok hi, he]

/-- A step faults exactly at an unassigned opcode byte, and reports that byte (R190). -/
theorem step_fault_iff {s : State} {f : Fault} :
    step s = .fault f ↔ lookupOpcode (opcodeAtPC s) = none ∧ f = .illegalOpcode (opcodeAtPC s) := by
  constructor
  · intro h
    cases hl : lookupOpcode (opcodeAtPC s) with
    | none => exact ⟨rfl, by simpa [step_of_lookup_none hl] using h.symm⟩
    | some r =>
      obtain ⟨i, -, hi, -⟩ := fetch_assigned hl
      obtain ⟨t, ht⟩ := exec_completes i s
      simp [step_of_fetch_ok hi, ht] at h
  · rintro ⟨hl, rfl⟩
    exact step_of_lookup_none hl

/-! ### Fetching depends on memory and PC alone -/

theorem bytesAt_congr {s u : State} (hm : u.mem = s.mem) : ∀ (n : Nat) (a : Addr), bytesAt u n a = bytesAt s n a
  | 0, _ => rfl
  | n + 1, a => by simp only [bytesAt, memRead, hm, bytesAt_congr hm n (a + 1)]

theorem fetch_congr {s u : State} (hm : u.mem = s.mem) (hpc : u.pc = s.pc) : fetch u = fetch s := by
  simp only [fetch, instrBytesAtPC, operandBytesAtPC, opcodeAtPC, memRead, hm, hpc, bytesAt_congr hm]

/-! ### SP -/

theorem fetch_sp (v : Byte) (s : State) : fetch { s with sp := v } = fetch s := fetch_congr rfl rfl

/-- The operand forms do not read SP (R14, R70). -/
theorem resolveMem_sp (m : MemMode) (v : Byte) (s : State) : resolveMem m { s with sp := v } = resolveMem m s :=
  resolveMem_congr m rfl rfl rfl

theorem sourceValue_sp (x : Source) (v : Byte) (s : State) : sourceValue x { s with sp := v } = sourceValue x s :=
  sourceValue_congr x rfl rfl rfl

theorem sourcePenalty_sp (x : Source) (v : Byte) (s : State) :
    sourcePenalty x { s with sp := v } = sourcePenalty x s :=
  sourcePenalty_congr x rfl rfl rfl

/-- No instruction reads or writes SP: it is carried over, and with another SP the same instruction ends in the same
state but for SP (R14). -/
theorem exec_sp_inert {i : Instr} {s t : State} (v : Byte) (h : exec i s = .next t) :
    t.sp = s.sp ∧ exec i { s with sp := v } = .next { t with sp := v } := by
  generalize hg : exec i = g at h ⊢
  cases hg ▸ exec_shape i with
  | lda x b =>
    obtain rfl := (loadA_next_iff x b s t).1 h
    exact ⟨rfl, by simp [loadA_next_iff, sourceValue_sp, sourcePenalty_sp]⟩
  | ldx x b =>
    obtain rfl := (loadX_next_iff x b s t).1 h
    exact ⟨rfl, by simp [loadX_next_iff, sourceValue_sp, sourcePenalty_sp]⟩
  | ldy x b =>
    obtain rfl := (loadY_next_iff x b s t).1 h
    exact ⟨rfl, by simp [loadY_next_iff, sourceValue_sp, sourcePenalty_sp]⟩
  | adc x b =>
    obtain rfl := (addToA_next_iff x b s t).1 h
    exact ⟨rfl, by simp [addToA_next_iff, sourceValue_sp, sourcePenalty_sp]⟩
  | and x b =>
    obtain rfl := (andToA_next_iff x b s t).1 h
    exact ⟨rfl, by simp [andToA_next_iff, sourceValue_sp, sourcePenalty_sp]⟩
  | aslAcc =>
    obtain rfl := (execAslAcc_next_iff s t).1 h
    exact ⟨rfl, rfl⟩
  | aslMem m b =>
    obtain rfl := (shiftMem_next_iff m b s t).1 h
    exact ⟨rfl, by simp [shiftMem_next_iff, resolveMem_sp]⟩
  | branch d f w =>
    obtain rfl := (branchIf_next_iff (getFlag f s.p == w) d s t).1 h
    exact ⟨rfl, (branchIf_next_iff _ d _ _).2 rfl⟩
  | flag f w =>
    obtain rfl := (writeFlag_next_iff f w s t).1 h
    exact ⟨rfl, rfl⟩
  | nop =>
    obtain rfl := (retireAt_next_iff (pcAfter .IMP s.pc) 2 s t).1 h
    exact ⟨rfl, rfl⟩

end Sys2Proof.Machine

namespace Sys2Proof.Spec

open Sys2Proof.Machine

/-- Settles O41: the fault and the instruction fetched depend on PC and memory alone, and no instruction touches SP. -/
theorem stackPointerIsInert : Obligations.StackPointerIsInert := by
  refine ⟨rfl, fun s v => ⟨fun f h => ?_, fun t h => ?_⟩⟩
  · have hunassigned := step_fault_iff.1 h
    exact step_fault_iff.2 hunassigned
  · obtain ⟨i, hfetch, hexec⟩ := step_next_iff.1 h
    obtain ⟨hsp, hexec'⟩ := exec_sp_inert v hexec
    exact ⟨hsp, step_next_iff.2 ⟨i, (fetch_sp v s).trans hfetch, hexec'⟩⟩

/-- Settles O48: the seven values by evaluation, the flags of `P = 0x20` one by one. -/
theorem resetValues : Obligations.ResetValues := by
  refine ⟨rfl, rfl, rfl, rfl, rfl, rfl, rfl, fun f hf => ?_⟩
  cases f with
  | U => exact absurd rfl hf
  | C | Z | I | D | B | V | N => rfl

end Sys2Proof.Spec
end

section
/-! SUPPORT. What a read returns after a write (R47), from the cells up to the state; and the statements of the family
spec/20_memory.md. -/

namespace Sys2Proof.Machine

/-! ### Reading the cells after an erasure or an insertion -/

theorem cellsRead_of_not_listed {a : Nat} : ∀ {cells : List Host.Cell}, (∀ c ∈ cells, c.1 ≠ a) →
    cellsRead cells a = Memory.unlisted
  | [], _ => rfl
  | (k, w) :: rest, h => by
    obtain ⟨hk, hrest⟩ := List.forall_mem_cons.1 h
    rw [cellsRead, if_neg hk, cellsRead_of_not_listed hrest]

theorem cellsRead_erase_ne {a b : Nat} (hb : b ≠ a) : ∀ cells : List Host.Cell,
    cellsRead (cellsErase cells a) b = cellsRead cells b
  | [] => rfl
  | (k, w) :: rest => by
    have ih := cellsRead_erase_ne hb rest
    by_cases hk : k = a
    · simp [cellsErase, cellsRead, hk, hb.symm, ih]
    · simp [cellsErase, cellsRead, hk, ih]

/-- The address must not be listed before: the new cell goes behind an old one of the same address, which would hide it. -/
theorem cellsRead_insert_same {a : Nat} (v : Byte) : ∀ {cells : List Host.Cell}, (∀ c ∈ cells, c.1 ≠ a) →
    cellsRead (cellsInsert cells a v) a = v
  | [], _ => by simp [cellsInsert, cellsRead]
  | (k, w) :: rest, h => by
    obtain ⟨hk, hrest⟩ := List.forall_mem_cons.1 h
    by_cases hlt : a < k
    · simp [cellsInsert, cellsRead, hlt]
    · rw [cellsInsert, if_neg hlt, cellsRead, if_neg hk, cellsRead_insert_same v hrest]

theorem cellsRead_insert_ne {a b : Nat} (hb : b ≠ a) (v : Byte) : ∀ cells : List Host.Cell,
    cellsRead (cellsInsert cells a v) b = cellsRead cells b
  | [] => by simp [cellsInsert, cellsRead, hb.symm]
  | (k, w) :: rest => by
    by_cases hlt : a < k
    · simp [cellsInsert, cellsRead, hlt, hb.symm]
    · simp [cellsInsert, cellsRead, hlt, cellsRead_insert_ne hb v rest]

/-! ### Reading the memory after a write -/

@[simp] theorem Memory.read_write_same (m : Memory) (a : Addr) (v : Byte) : (m.write a v).read a = v := by
  have herased : ∀ c ∈ cellsErase m.cells a.toNat, c.1 ≠ a.toNat := fun _ hc => cellsErase_ne _ hc
  unfold Memory.write Memory.read
  split
  · next hv => exact (cellsRead_of_not_listed herased).trans hv.symm
  · exact cellsRead_insert_same v herased

theorem Memory.read_write_ne {a b : Addr} (hb : b ≠ a) (m : Memory) (v : Byte) :
    (m.write a v).read b = m.read b := by
  have hnat : b.toNat ≠ a.toNat := BitVec.toNat_ne.1 hb
  have herased := cellsRead_erase_ne hnat m.cells
  unfold Memory.write Memory.read
  split
  · exact herased
  · exact (cellsRead_insert_ne hnat v _).trans herased

@[simp] theorem memRead_memWrite_same (a : Addr) (v : Byte) (s : State) : memRead a (memWrite a v s) = v :=
  s.mem.read_write_same a v

theorem memRead_memWrite_ne {a b : Addr} (hb : b ≠ a) (v : Byte) (s : State) :
    memRead b (memWrite a v s) = memRead b s :=
  s.mem.read_write_ne hb v

end Sys2Proof.Machine

namespace Sys2Proof.Spec

open Sys2Proof.Machine

/-- Settles O9: a write erases every cell of the address before it lists the new byte, and an erasure or an insertion
does not touch what the other addresses read. -/
theorem writeThenReadRoundTrip : Obligations.WriteThenReadRoundTrip :=
  fun s a v => ⟨memRead_memWrite_same a v s, fun _ hb => memRead_memWrite_ne hb v s⟩

end Sys2Proof.Spec
end

section
/-! SUPPORT. What a successful decoding says of the bytes it took (R52, R54); and the statements of the family
spec/30_encoding.md. -/

namespace Sys2Proof

/-! ### The operand bytes of an operand form -/

theorem Operand.bytes_length (o : Operand) : o.bytes.length = o.format.operandCount := by
  cases o with
  | imp | acc | rel d => rfl
  | src x =>
    cases x with
    | imm v => rfl
    | mem m => cases m <;> rfl

/-- A zero-page form has one operand byte, `zp8` (R52). -/
theorem MemMode.operandBytes_of_zeroPage {z : Byte} {m : MemMode}
    (h : m ∈ [.zp z, .zpx z, .zpy z, .izx z, .izy z]) : m.operandBytes = [z] := by
  simp only [List.mem_cons, List.not_mem_nil, or_false] at h
  obtain rfl | rfl | rfl | rfl | rfl := h <;> rfl

/-- An absolute form has two operand bytes, the low byte of `addr16` first (R52). -/
theorem MemMode.operandBytes_of_absolute {a : Addr} {m : MemMode} (h : m ∈ [.abs a, .abx a, .aby a]) :
    m.operandBytes = [lowByte a, highByte a] := by
  simp only [List.mem_cons, List.not_mem_nil, or_false] at h
  obtain rfl | rfl | rfl := h <;> rfl

/-! ### What a successful decoding says -/

/-- An assembled instruction has the mnemonic and format asked for, and its operand bytes are the given ones, as many
as the format has (R52). -/
theorem assemble_some {m : Mnemonic} {f : Format} {b1 b2 : Byte} {i : Instr} (h : assemble m f b1 b2 = some i) :
    i.mnemonic = m ∧ i.format = f ∧ i.operand.bytes = [b1, b2].take f.operandCount := by
  unfold assemble at h
  split at h <;> cases h <;> refine ⟨rfl, rfl, ?_⟩ <;>
    simp [Instr.operand, Operand.bytes, MemMode.operandBytes, Format.operandCount, lowByte_word16, highByte_word16]

theorem decodeRow_finish_ok {r : OpcodeRow} {b1 b2 : Byte} {behind rest : List Byte} {i : Instr}
    (h : decodeRow.finish r b1 b2 behind = .ok (i, rest)) :
    assemble r.mnemonic r.format b1 b2 = some i ∧ behind = rest := by
  unfold decodeRow.finish at h
  split at h
  · next hi => cases h; exact ⟨hi, rfl⟩
  · cases h

/-- A row that decodes takes exactly the operand bytes of its instruction. -/
theorem decodeRow_ok {r : OpcodeRow} {behind rest : List Byte} {i : Instr}
    (h : decodeRow r behind = .ok (i, rest)) :
    i.mnemonic = r.mnemonic ∧ i.format = r.format ∧ behind = i.operand.bytes ++ rest := by
  unfold decodeRow at h
  split at h
  case h_4 => cases h
  all_goals
    next hcount =>
    obtain ⟨hi, rfl⟩ := decodeRow_finish_ok h
    obtain ⟨hm, hf, hbytes⟩ := assemble_some hi
    exact ⟨hm, hf, by simp [hbytes, hcount]⟩

/-- Bytes that decode to an instruction are an assigned opcode byte, then the operand bytes of that instruction, then
the bytes left over. -/
theorem decode_ok {b : Byte} {behind rest : List Byte} {i : Instr} (h : decode (b :: behind) = .ok (i, rest)) :
    ∃ r, lookupOpcode b = some r ∧ i.mnemonic = r.mnemonic ∧ i.format = r.format ∧
      behind = i.operand.bytes ++ rest := by
  cases hb : lookupOpcode b with
  | none => simp [decode_unassigned hb] at h
  | some r => exact ⟨r, rfl, decodeRow_ok (by simpa [decode, hb] using h)⟩

/-- `rel8` extended to 16 bits is the same signed number (R52). -/
theorem sext16_toInt (d : Byte) : (sext16 d).toInt = d.toInt := by
  rw [sext16_eq_signExtend, BitVec.toInt_signExtend_of_le (by decide)]

end Sys2Proof

namespace Sys2Proof.Spec

open Sys2Proof.Machine

/-- Settles O6: the row of the opcode byte gives the instruction its format, and the bytes taken behind the opcode are
the instruction's operand bytes, as many as the format has. -/
theorem lengthFollowsFromTheOpcodeByte : Obligations.LengthFollowsFromTheOpcodeByte := by
  intro b behind rest i h
  obtain ⟨r, hr, -, hformat, rfl⟩ := decode_ok h
  have hcount : i.operand.bytes.length = i.format.operandCount := i.operand.bytes_length
  refine ⟨r, hr, by rw [Instr.length, hformat], ?_⟩
  rw [List.length_append, hcount, Instr.length, Nat.add_assoc]

/-- Settles O7: the bytes behind the opcode begin with the operand bytes of the instruction, so each form's fields are
read off its first one or two bytes. -/
theorem operandFieldsAreAssembledFromBytes : Obligations.OperandFieldsAreAssembledFromBytes := by
  refine ⟨fun b0 b1 b2 rest i h => ?_, zext16_toNat, fun d => ⟨sext16_toInt d, d.le_toInt, ?_⟩⟩
  · obtain ⟨-, -, -, -, hbytes⟩ := decode_ok h
    refine ⟨fun v ho => ?imm, fun z m ho hm => ?zeroPage, fun a m ho hm => ?absolute, fun d ho => ?rel⟩
    case imm | rel =>
      rw [ho] at hbytes
      exact (List.cons.inj hbytes).1.symm
    case zeroPage =>
      rw [ho, Operand.bytes, MemMode.operandBytes_of_zeroPage hm] at hbytes
      exact (List.cons.inj hbytes).1.symm
    case absolute =>
      rw [ho, Operand.bytes, MemMode.operandBytes_of_absolute hm] at hbytes
      obtain ⟨rfl, htail⟩ := List.cons.inj hbytes
      obtain ⟨rfl, -⟩ := List.cons.inj htail
      rw [← word16_toNat, word16_high_low]
  · exact Int.le_of_lt_add_one d.toInt_lt

end Sys2Proof.Spec
end

section
/-! SUPPORT. The numbers behind a zero-page address, the operand bytes of a fetched instruction, and which instructions
have a form; and the statements of the family spec/40_addressing_modes.md. -/

namespace Sys2Proof

/-! ### Zero-page addresses as numbers -/

theorem zext16_eq_ofNat (v : Byte) : zext16 v = BitVec.ofNat 16 v.toNat := (BitVec.ofNat_toNat 16 v).symm

/-- An 8-bit sum used as an address wraps inside page zero (R34, R75, R76). -/
theorem zext16_add (v w : Byte) : zext16 (v + w) = BitVec.ofNat 16 ((v.toNat + w.toNat) % 256) := by
  rw [zext16_eq_ofNat, BitVec.toNat_add]

@[simp] theorem page_zext16 (v : Byte) : page (zext16 v) = 0 := by
  apply BitVec.eq_of_toNat_eq
  rw [page_toNat, zext16_toNat]
  exact Nat.div_eq_of_lt v.isLt

/-! ### Which instructions have a form (R56) -/

theorem operand_eq_imp_iff (i : Instr) :
    i.operand = .imp ↔ i.mnemonic ∈ [.CLC, .CLD, .CLI, .CLV, .SEC, .SED, .SEI, .NOP] := by
  cases i with
  | clc | cld | cli | clv | sec | sed | sei | nop => exact iff_of_true rfl (by decide)
  | _ => exact iff_of_false nofun (by simp [Instr.mnemonic])

theorem operand_eq_acc_iff (i : Instr) : i.operand = .acc ↔ i = .aslAcc := by
  cases i with
  | aslAcc => exact iff_of_true rfl rfl
  | _ => exact iff_of_false nofun nofun

theorem operand_eq_zpy_iff (i : Instr) (z : Byte) : i.operand = .src (.mem (.zpy z)) ↔ i = .ldxZpy z := by
  cases i with
  | ldxZpy w => simp [Instr.operand]
  | _ => exact iff_of_false nofun nofun

theorem operand_eq_izx_iff (i : Instr) (z : Byte) :
    i.operand = .src (.mem (.izx z)) ↔ i ∈ [.ldaIzx z, .adcIzx z, .andIzx z] := by
  cases i with
  | ldaIzx w | adcIzx w | andIzx w => simp [Instr.operand]
  | _ => exact iff_of_false nofun (by simp)

end Sys2Proof

namespace Sys2Proof.Machine

@[simp] theorem truncate8_toNat (t : Nat) : (truncate8 t).toNat = t % 256 := BitVec.toNat_ofNat t 8

/-- `ReadZP16` in numbers: the high byte comes from the next address of page zero (R34). -/
theorem readZP16_toNat (zp : Byte) (s : State) :
    (readZP16 zp s).toNat =
      (s.mem.read (BitVec.ofNat 16 ((zp.toNat + 1) % 256))).toNat * 256 +
        (s.mem.read (BitVec.ofNat 16 zp.toNat)).toNat := by
  rw [readZP16, word16_toNat, zext16_add, zext16_eq_ofNat]
  rfl

/-- The zero-page forms find their address in page zero, and read no pointer for it (R74 to R76, R84). -/
theorem resolveMem_of_zeroPage {z : Byte} {m : MemMode} (h : m ∈ [.zp z, .zpx z, .zpy z]) (s : State) :
    pointerReads m s = [] ∧ page (resolveMem m s).ea = 0 := by
  simp only [List.mem_cons, List.not_mem_nil, or_false] at h
  obtain rfl | rfl | rfl := h <;> exact ⟨rfl, page_zext16 _⟩

/-! ### The operand bytes of the fetched instruction -/

/-- The operand bytes of the fetched instruction are the bytes of memory behind its opcode byte (R46, R54). -/
theorem fetch_operandBytes {s : State} {i : Instr} (h : fetch s = .ok i) :
    i.operand.bytes = bytesAt s i.format.operandCount (s.pc + 1) := by
  cases hl : lookupOpcode (opcodeAtPC s) with
  | none => simp [fetch_unassigned hl] at h
  | some r =>
    obtain ⟨j, hdecode, hfetch, -, hformat⟩ := fetch_assigned hl
    obtain rfl : j = i := Except.ok.inj (hfetch.symm.trans h)
    rw [instrBytesAtPC_cons] at hdecode
    obtain ⟨-, -, -, -, hbytes⟩ := decode_ok hdecode
    simpa [operandBytesAtPC, hl, hformat] using hbytes.symm

/-- An instruction with one operand byte is two bytes long, and that byte is the one at PC + 1. -/
theorem fetch_of_one_operandByte {s : State} {i : Instr} {z : Byte} (h : fetch s = .ok i)
    (hz : i.operand.bytes = [z]) : i.length = 2 ∧ z = memRead (s.pc + 1) s := by
  have hcount : i.format.operandCount = 1 := by rw [Instr.format, ← Operand.bytes_length, hz]; rfl
  have hbytes := fetch_operandBytes h
  rw [hz, hcount] at hbytes
  exact ⟨by rw [Instr.length, hcount], (List.cons.inj hbytes).1⟩

end Sys2Proof.Machine

namespace Sys2Proof.Spec

open Sys2Proof.Machine

/-- Settles O14: the resolver has an answer without an address for the two forms, a format without operand bytes makes
the instruction one byte long, and ASL A ends in the doubled A with the memory it had. -/
theorem impliedAndAccumulatorForms : Obligations.ImpliedAndAccumulatorForms := by
  refine ⟨fun s => ⟨rfl, rfl, rfl, rfl⟩, operand_eq_imp_iff, operand_eq_acc_iff, fun i ho => ?_, fun s => ?_⟩
  · rw [Instr.length, Instr.format]
    obtain ho | ho := ho <;> rw [ho] <;> exact ⟨rfl, fun _ => rfl⟩
  · exact ⟨_, (execAslAcc_next_iff s _).2 rfl, truncate8_toNat _, fun _ => rfl⟩

/-- Settles O15: the addresses are zero-extended bytes, so they lie in page zero, and the index is added in 8 bits. -/
theorem zeroPageFormsStayInPageZero : Obligations.ZeroPageFormsStayInPageZero := by
  intro s z
  refine ⟨?zp, ?zpx, ?zpy, fun m hm => ?everyForm, fun i => operand_eq_zpy_iff i z⟩
  case zp => rw [← zext16_eq_ofNat]; rfl
  case zpx | zpy => rw [← zext16_add]; rfl
  case everyForm =>
    obtain ⟨hreads, hpage⟩ := resolveMem_of_zeroPage hm s
    have hbytes : m.operandBytes = [z] :=
      MemMode.operandBytes_of_zeroPage (List.mem_append_left [MemMode.izx z, .izy z] hm)
    exact ⟨hreads, hpage, fun i hfetch ho => fetch_of_one_operandByte hfetch (by rw [ho]; exact hbytes)⟩

/-- Settles O17: the pointer is the 8-bit sum `z + X`, and `ReadZP16` takes both bytes of the address from page zero. -/
theorem indirectXTakesItsPointerFromPageZero : Obligations.IndirectXTakesItsPointerFromPageZero := by
  intro s z p hp
  have hpointer : (z + s.x).toNat = p := (BitVec.toNat_add z s.x).trans hp.symm
  refine ⟨⟨readZP16 (z + s.x) s, rfl, ?address⟩, ?reads, fun i hfetch ho => ?operandByte,
    fun i => operand_eq_izx_iff i z⟩
  case address => rw [readZP16_toNat, hpointer]
  case reads => rw [pointerReads, zext16_add (z + s.x), zext16_eq_ofNat (z + s.x), hpointer]; rfl
  case operandByte => exact fetch_of_one_operandByte hfetch (by rw [ho]; rfl)

end Sys2Proof.Spec
end

section
/-! SUPPORT. The four flag rules and the unmasked intermediates in numbers and bits (R90 to R93, R96); and the statement
of the family spec/41_alu_flags.md. -/

namespace Sys2Proof.Machine

theorem zeroOf_iff (r : Nat) : zeroOf r = true ↔ r % 256 = 0 := beq_iff_eq

/-- Bit 7 of a number below 256 is its quotient by 128, which is 0 or 1. -/
theorem signOf_iff (r : Nat) : signOf r = true ↔ r % 256 ≥ 128 := by
  have hbit : signOf r = decide (r % 256 / 128 % 2 = 1) := Nat.testBit_eq_decide_div_mod_eq
  rw [hbit, decide_eq_true_iff]
  omega

theorem carryOf_iff (t : Nat) : carryOf t = true ↔ t > 0xFF := decide_eq_true_iff

theorem overflowOf_iff (a m r : Byte) :
    overflowOf a m r = true ↔ a.getLsbD 7 = m.getLsbD 7 ∧ r.getLsbD 7 ≠ a.getLsbD 7 := by
  have hmsb : ∀ v : Byte, v.msb = v.getLsbD 7 := BitVec.msb_eq_getLsbD_last
  simp only [overflowOf, hmsb, Bool.and_eq_true, beq_iff_eq, bne_iff_ne]

theorem addIntermediate_le (a m : Byte) (c : Bool) : addIntermediate a m c ≤ 511 := by
  have ha := a.isLt
  have hm := m.isLt
  have hc := c.toNat_le
  unfold addIntermediate
  omega

theorem shiftIntermediate_le (v : Byte) : shiftIntermediate v ≤ 510 := by
  have hv := v.isLt
  unfold shiftIntermediate
  omega

end Sys2Proof.Machine

namespace Sys2Proof.Spec

open Sys2Proof.Machine

/-- Settles O22: each rule by its own lemma, the two flags of `setZN` read back from the byte it writes, and the bounds
of the intermediates from those of a byte and of the carry. -/
theorem fourFlagRules : Obligations.FourFlagRules := by
  refine ⟨zeroOf_iff, signOf_iff, carryOf_iff, overflowOf_iff, fun r p => ⟨?zero, ?sign⟩,
    fun a m c => ⟨rfl, addIntermediate_le a m c⟩, fun v => ⟨rfl, shiftIntermediate_le v⟩⟩
  case zero => exact getFlag_setZN .Z r p
  case sign => exact getFlag_setZN .N r p

end Sys2Proof.Spec
end

section
/-! SUPPORT. The reading instructions by mnemonic, the formats that read no index register, and the flags of `setZN` in
the vocabulary of the statements; and the statements of the family spec/42_load.md. -/

namespace Sys2Proof.Machine

/-! ### The reading instructions -/

/-- The shared operation of the five mnemonics that read an operand in every form (R85). -/
def readingOp : Mnemonic → Option (Source → Nat → State → Outcome)
  | .LDA => some loadA
  | .LDX => some loadX
  | .LDY => some loadY
  | .ADC => some addToA
  | .AND => some andToA
  | _ => none

/-- An instruction with such a mnemonic has a source and runs as its mnemonic's operation on that source. -/
theorem exec_of_readingOp {i : Instr} {op : Source → Nat → State → Outcome} (h : readingOp i.mnemonic = some op) :
    ∃ x base, i.operand = .src x ∧ exec i = op x base := by
  generalize hg : exec i = g
  cases hg ▸ exec_shape i with
  | lda x b hm ho | ldx x b hm ho | ldy x b hm ho | adc x b hm ho | and x b hm ho =>
    rw [hm] at h
    cases h
    exact ⟨x, b, ho, rfl⟩
  | aslAcc hm | aslMem _ _ hm | nop hm => simp [hm, readingOp] at h
  | branch _ _ _ hrow | flag _ _ hrow =>
    cases hm : i.mnemonic <;> simp [hm, readingOp] at h hrow

theorem source_format_mem {i : Instr} {x : Source} (ho : i.operand = .src x) : x.format ∈ i.mnemonic.formats := by
  have h := format_mem i
  rwa [Instr.format, ho] at h

/-! ### Operands found without an index register -/

/-- Only the forms ZPX, ABX and IZX read X (R75, R78, R81). -/
theorem sourceValue_x {x : Source} (h : x.format ∉ [.ZPX, .ABX, .IZX]) (v : Byte) (s : State) :
    sourceValue x { s with x := v } = sourceValue x s := by
  cases x with
  | imm b => rfl
  | mem m =>
    cases m with
    | zpx z | abx a | izx z => simp [Source.format, MemMode.format] at h
    | zp z | zpy z | abs a | aby a | izy z => rfl

/-- Only the forms ZPY, ABY and IZY read Y (R76, R79, R82). -/
theorem sourceValue_y {x : Source} (h : x.format ∉ [.ZPY, .ABY, .IZY]) (v : Byte) (s : State) :
    sourceValue x { s with y := v } = sourceValue x s := by
  cases x with
  | imm b => rfl
  | mem m =>
    cases m with
    | zpy z | aby a | izy z => simp [Source.format, MemMode.format] at h
    | zp z | zpx z | abs a | abx a | izx z => rfl

/-- LDX has no form that reads X (R101). -/
theorem ldxFormats_not_indexedByX : ∀ f ∈ Mnemonic.LDX.formats, f ∉ [Format.ZPX, .ABX, .IZX] := by decide

/-- LDY has no form that reads Y (R102). -/
theorem ldyFormats_not_indexedByY : ∀ f ∈ Mnemonic.LDY.formats, f ∉ [Format.ZPY, .ABY, .IZY] := by decide

/-! ### Zero and sign of a byte -/

theorem zeroOf_toNat_iff (v : Byte) : zeroOf v.toNat = true ↔ v = 0 := by
  rw [zeroOf_iff, Nat.mod_eq_of_lt v.isLt]
  exact BitVec.toNat_inj (y := 0#8)

theorem signOf_toNat_iff (v : Byte) : signOf v.toNat = true ↔ v.toNat ≥ 128 := by
  rw [signOf_iff, Nat.mod_eq_of_lt v.isLt]

end Sys2Proof.Machine

namespace Sys2Proof.Spec

open Sys2Proof.Machine

/-- `setZN` leaves Z and N as the zero and sign of its byte (R90, R91). -/
theorem zeroSignOf_setZN {v p : Byte} {t : State} (h : t.p = setZN v p) : ZeroSignOf v t := by
  rw [ZeroSignOf, h, getFlag_setZN, getFlag_setZN]
  exact ⟨zeroOf_toNat_iff v, signOf_toNat_iff v⟩

/-- `setZN` writes no flag but Z and N (R94). -/
theorem flagsKept_setZN {v : Byte} {s t : State} (h : t.p = setZN v s.p) : FlagsKept [.Z, .N] s t := by
  intro f hf
  obtain ⟨hZ, hN⟩ : f ≠ .Z ∧ f ≠ .N := by simpa using hf
  rw [h, getFlag_setZN, if_neg hN, if_neg hZ]

/-- Settles O24: every form of LDA runs as `loadA` of its source, whose one next state is written out in
`loadA_next_iff`. -/
theorem ldaLoadsTheOperand : Obligations.LdaLoadsTheOperand := by
  intro i s hm
  obtain ⟨x, b, ho, hexec⟩ := exec_of_readingOp (congrArg readingOp hm)
  have hnext := (loadA_next_iff x b s _).2 rfl
  exact ⟨x, _, ho, (congrFun hexec s).trans hnext, rfl, zeroSignOf_setZN rfl, flagsKept_setZN rfl, rfl, rfl, rfl,
    fun _ => rfl⟩

/-- Settles O25: every form of LDX runs as `loadX` of its source, and none of LDX's formats is indexed by X. -/
theorem ldxLoadsTheOperand : Obligations.LdxLoadsTheOperand := by
  intro i s hm
  obtain ⟨x, b, ho, hexec⟩ := exec_of_readingOp (congrArg readingOp hm)
  have hnext := (loadX_next_iff x b s _).2 rfl
  have hformat := ldxFormats_not_indexedByX _ (hm ▸ source_format_mem ho)
  exact ⟨x, _, ho, (congrFun hexec s).trans hnext, rfl, zeroSignOf_setZN rfl, (sourceValue_x hformat 0 s).symm,
    flagsKept_setZN rfl, rfl, rfl, rfl, fun _ => rfl⟩

/-- Settles O26: every form of LDY runs as `loadY` of its source, and none of LDY's formats is indexed by Y. -/
theorem ldyLoadsTheOperand : Obligations.LdyLoadsTheOperand := by
  intro i s hm
  obtain ⟨x, b, ho, hexec⟩ := exec_of_readingOp (congrArg readingOp hm)
  have hnext := (loadY_next_iff x b s _).2 rfl
  have hformat := ldyFormats_not_indexedByY _ (hm ▸ source_format_mem ho)
  exact ⟨x, _, ho, (congrFun hexec s).trans hnext, rfl, zeroSignOf_setZN rfl, (sourceValue_y hformat 0 s).symm,
    flagsKept_setZN rfl, rfl, rfl, rfl, fun _ => rfl⟩

end Sys2Proof.Spec
end

section
/-! SUPPORT. The flags of an add in the vocabulary of the statements (R110), and the meanings as functions of the flags
other than D (R112); and the statements of the family spec/43_adc_and.md. -/

namespace Sys2Proof.Machine

/-! ### The flags of an add -/

/-- The sign test in the words of R93: the operands have one sign, the result the other. -/
theorem overflowOf_iff_msb (a m r : Byte) : overflowOf a m r = true ↔ a.msb = m.msb ∧ r.msb ≠ a.msb := by
  simp only [overflowOf, Bool.and_eq_true, beq_iff_eq, bne_iff_ne]

theorem carry_flagsOfAdd_iff (a m p : Byte) :
    getFlag .C (flagsOfAdd a m p) = true ↔ a.toNat + m.toNat + (getFlag .C p).toNat > 0xFF := by
  rw [getFlag_flagsOfAdd]
  exact carryOf_iff (addIntermediate a m (getFlag .C p))

theorem overflow_flagsOfAdd_iff (a m p : Byte) :
    getFlag .V (flagsOfAdd a m p) = true ↔
      a.msb = m.msb ∧ (truncate8 (addIntermediate a m (getFlag .C p))).msb ≠ a.msb := by
  rw [getFlag_flagsOfAdd]
  exact overflowOf_iff_msb a m _

/-! ### Flag bytes that agree outside some flags -/

/-- The flag bytes `p` and `q` agree in every flag outside `fs`. -/
def AgreeOutside (fs : List Flag) (p q : Byte) : Prop := ∀ f, f ∉ fs → getFlag f q = getFlag f p

namespace AgreeOutside

variable {fs : List Flag} {p q : Byte}

theorem setFlag_self {f : Flag} (hf : f ∈ fs) (v : Bool) (p : Byte) : AgreeOutside fs p (setFlag f v p) := by
  intro g hg
  have hne : g ≠ f := fun h => hg (h ▸ hf)
  rw [getFlag_setFlag, if_neg hne]

theorem setFlag (h : AgreeOutside fs p q) (f : Flag) (v : Bool) :
    AgreeOutside fs (setFlag f v p) (setFlag f v q) := by
  intro g hg
  rw [getFlag_setFlag, getFlag_setFlag, h g hg]

theorem setZN (h : AgreeOutside fs p q) (r : Byte) : AgreeOutside fs (setZN r p) (setZN r q) :=
  (h.setFlag .Z _).setFlag .N _

/-- An add reads the carry, so the bytes must agree in it. -/
theorem flagsOfAdd (h : AgreeOutside fs p q) (hC : .C ∉ fs) (a m : Byte) :
    AgreeOutside fs (flagsOfAdd a m p) (flagsOfAdd a m q) := by
  unfold Machine.flagsOfAdd
  rw [h .C hC]
  exact ((h.setZN _).setFlag .C _).setFlag .V _

theorem flagsOfShift (h : AgreeOutside fs p q) (v : Byte) :
    AgreeOutside fs (flagsOfShift v p) (flagsOfShift v q) :=
  (h.setZN _).setFlag .C _

end AgreeOutside

/-! ### The decimal flag -/

/-- The operand forms do not read `P` (R70). -/
theorem resolveMem_p (m : MemMode) (q : Byte) (s : State) : resolveMem m { s with p := q } = resolveMem m s :=
  resolveMem_congr m rfl rfl rfl

theorem sourceValue_p (x : Source) (q : Byte) (s : State) : sourceValue x { s with p := q } = sourceValue x s :=
  sourceValue_congr x rfl rfl rfl

theorem sourcePenalty_p (x : Source) (q : Byte) (s : State) :
    sourcePenalty x { s with p := q } = sourcePenalty x s :=
  sourcePenalty_congr x rfl rfl rfl

/-- No instruction reads D: from a flag byte that differs in D at most, the same instruction ends in the same state but
for a flag byte that differs in D at most (R112). Only ADC and the branches read a flag at all. -/
theorem exec_decimal_inert {i : Instr} {s t : State} {q : Byte} (hq : AgreeOutside [.D] s.p q)
    (h : exec i s = .next t) :
    ∃ r, AgreeOutside [.D] t.p r ∧ exec i { s with p := q } = .next { t with p := r } := by
  generalize hg : exec i = g at h ⊢
  cases hg ▸ exec_shape i with
  | lda x b =>
    obtain rfl := (loadA_next_iff x b s t).1 h
    exact ⟨_, hq.setZN _, by simp [loadA_next_iff, sourceValue_p, sourcePenalty_p]⟩
  | ldx x b =>
    obtain rfl := (loadX_next_iff x b s t).1 h
    exact ⟨_, hq.setZN _, by simp [loadX_next_iff, sourceValue_p, sourcePenalty_p]⟩
  | ldy x b =>
    obtain rfl := (loadY_next_iff x b s t).1 h
    exact ⟨_, hq.setZN _, by simp [loadY_next_iff, sourceValue_p, sourcePenalty_p]⟩
  | adc x b =>
    obtain rfl := (addToA_next_iff x b s t).1 h
    have hcarry : getFlag .C q = getFlag .C s.p := hq .C (by decide)
    exact ⟨_, hq.flagsOfAdd (by decide) _ _, by simp [addToA_next_iff, sourceValue_p, sourcePenalty_p, hcarry]⟩
  | and x b =>
    obtain rfl := (andToA_next_iff x b s t).1 h
    exact ⟨_, hq.setZN _, by simp [andToA_next_iff, sourceValue_p, sourcePenalty_p]⟩
  | aslAcc =>
    obtain rfl := (execAslAcc_next_iff s t).1 h
    exact ⟨_, hq.flagsOfShift _, rfl⟩
  | aslMem m b =>
    obtain rfl := (shiftMem_next_iff m b s t).1 h
    exact ⟨_, hq.flagsOfShift _, by simp [shiftMem_next_iff, resolveMem_p]⟩
  | branch d f v hrow =>
    obtain rfl := (branchIf_next_iff (getFlag f s.p == v) d s t).1 h
    have hD : f ∉ [.D] := fun hf => by simp [List.mem_singleton.1 hf] at hrow
    have hcond : getFlag f q = getFlag f s.p := hq f hD
    exact ⟨_, hq, by simp [branchIf_next_iff, hcond]⟩
  | flag f v =>
    obtain rfl := (writeFlag_next_iff f v s t).1 h
    exact ⟨_, hq.setFlag f v, rfl⟩
  | nop =>
    obtain rfl := (retireAt_next_iff (pcAfter .IMP s.pc) 2 s t).1 h
    exact ⟨_, hq, rfl⟩

end Sys2Proof.Machine

namespace Sys2Proof.Spec

open Sys2Proof.Machine

/-- An add leaves Z and N as the zero and sign of its truncated sum (R110). -/
theorem zeroSignOf_flagsOfAdd {a m p : Byte} {t : State} (h : t.p = flagsOfAdd a m p) :
    ZeroSignOf (truncate8 (addIntermediate a m (getFlag .C p))) t := by
  rw [ZeroSignOf, h, getFlag_flagsOfAdd, getFlag_flagsOfAdd, getFlag_setZN, getFlag_setZN]
  exact ⟨zeroOf_toNat_iff _, signOf_toNat_iff _⟩

/-- An add writes no flag but C, Z, V and N (R94, R110). -/
theorem flagsKept_flagsOfAdd {a m : Byte} {s t : State} (h : t.p = flagsOfAdd a m s.p) :
    FlagsKept [.C, .Z, .V, .N] s t := by
  intro f hf
  obtain ⟨hC, hZ, hV, hN⟩ : f ≠ .C ∧ f ≠ .Z ∧ f ≠ .V ∧ f ≠ .N := by simpa using hf
  rw [h, getFlag_flagsOfAdd, if_neg hV, if_neg hC, getFlag_setZN, if_neg hN, if_neg hZ]

/-- Settles O27: every form of ADC runs as `addToA` of its source, whose one next state holds the truncated sum and the
flags of the add. -/
theorem adcAddsWithCarry : Obligations.AdcAddsWithCarry := by
  intro i s hm
  obtain ⟨x, b, ho, hexec⟩ := exec_of_readingOp (congrArg readingOp hm)
  have hnext := (addToA_next_iff x b s _).2 rfl
  exact ⟨x, _, ho, (congrFun hexec s).trans hnext, truncate8_toNat _, carry_flagsOfAdd_iff _ _ _,
    zeroSignOf_flagsOfAdd rfl, overflow_flagsOfAdd_iff _ _ _, flagsKept_flagsOfAdd rfl, rfl, rfl, rfl, fun _ => rfl⟩

/-- Settles O28: the instruction completes from the first state, and D is inert in it. -/
theorem decimalFlagHasNoEffect : Obligations.DecimalFlagHasNoEffect := by
  intro i s d
  obtain ⟨t, ht⟩ := exec_completes i s
  have hp : AgreeOutside [.D] s.p (setFlag .D d s.p) := .setFlag_self (by decide) d s.p
  obtain ⟨r, hr, hexec⟩ := exec_decimal_inert hp ht
  exact ⟨t, _, ht, hexec, rfl, rfl, rfl, rfl, rfl, rfl, hr, fun _ => rfl⟩

/-- Settles O29: every form of AND runs as `andToA` of its source, whose one next state is written out in
`andToA_next_iff`. -/
theorem andIsBitwise : Obligations.AndIsBitwise := by
  intro i s hm
  obtain ⟨x, b, ho, hexec⟩ := exec_of_readingOp (congrArg readingOp hm)
  have hnext := (andToA_next_iff x b s _).2 rfl
  exact ⟨x, _, ho, (congrFun hexec s).trans hnext, fun _ => BitVec.getLsbD_and, zeroSignOf_setZN rfl,
    flagsKept_setZN rfl, rfl, rfl, rfl, fun _ => rfl⟩

end Sys2Proof.Spec
end

section
/-! SUPPORT. The result and the flags of a shift in the vocabulary of the statements (R90 to R94, R120); and the
statement of the family spec/44_asl.md. -/

namespace Sys2Proof.Machine

/-- Bit 0 of a shift's result is 0 whatever the old carry was: ASL is not a rotate (R120). -/
theorem truncate8_shiftIntermediate_bit0 (v : Byte) : (truncate8 (shiftIntermediate v)).getLsbD 0 = false := by
  have heven : (truncate8 (shiftIntermediate v)).toNat % 2 ≠ 1 := by
    rw [truncate8_toNat, shiftIntermediate]
    omega
  rw [BitVec.getLsbD, Nat.testBit_zero, decide_eq_false heven]

/-- A shift leaves the old bit 7 in C (R92). -/
theorem carry_flagsOfShift (v p : Byte) : getFlag .C (flagsOfShift v p) = v.getLsbD 7 := by
  rw [getFlag_flagsOfShift, if_pos rfl]
  exact BitVec.msb_eq_getLsbD_last v

end Sys2Proof.Machine

namespace Sys2Proof.Spec

open Sys2Proof.Machine

/-- A shift leaves Z and N as the zero and sign of its result (R90, R91). -/
theorem zeroSignOf_flagsOfShift {v p : Byte} {t : State} (h : t.p = flagsOfShift v p) :
    ZeroSignOf (truncate8 (shiftIntermediate v)) t := by
  rw [ZeroSignOf, h, getFlag_flagsOfShift, getFlag_flagsOfShift, getFlag_setZN, getFlag_setZN]
  exact ⟨zeroOf_toNat_iff _, signOf_toNat_iff _⟩

/-- A shift writes no flag but C, Z and N (R94). -/
theorem flagsKept_flagsOfShift {v : Byte} {s t : State} (h : t.p = flagsOfShift v s.p) :
    FlagsKept [.C, .Z, .N] s t := by
  intro f hf
  obtain ⟨hC, hZ, hN⟩ : f ≠ .C ∧ f ≠ .Z ∧ f ≠ .N := by simpa using hf
  rw [h, getFlag_flagsOfShift, if_neg hC, getFlag_setZN, if_neg hN, if_neg hZ]

/-- Settles O30: the one next state of ASL A, written out in `execAslAcc_next_iff`, holds the result and the flags of a
shift of A, and the accumulator form has no operand to access. -/
theorem aslAccumulatorShiftsA : Obligations.AslAccumulatorShiftsA := by
  intro s
  have hnext := (execAslAcc_next_iff s _).2 rfl
  exact ⟨_, hnext, truncate8_toNat _, truncate8_shiftIntermediate_bit0 s.a,
    carry_flagsOfShift s.a s.p, zeroSignOf_flagsOfShift rfl, flagsKept_flagsOfShift rfl, rfl, rfl, rfl,
    fun _ => rfl, rfl⟩

end Sys2Proof.Spec
end

section
/-! SUPPORT. The next state of NOP, said once; and the statement of the family spec/46_flag_nop.md. -/

namespace Sys2Proof.Machine

/-- The next state of NOP (R157). -/
theorem execNop_next_iff (s t : State) :
    execNop s = .next t ↔ { s with pc := pcAfter .IMP s.pc, cyc := s.cyc + BitVec.ofNat 32 2 } = t := by
  simp [execNop]

end Sys2Proof.Machine

namespace Sys2Proof.Spec

open Sys2Proof.Machine

/-- Settles O34: the one next state of NOP, written out in `execNop_next_iff`, updates `pc` and `cyc` alone, and the
implied form has no operand to access. -/
theorem nopChangesOnlyPcAndCycles : Obligations.NopChangesOnlyPcAndCycles := by
  intro s
  have hnext := (execNop_next_iff s _).2 rfl
  exact ⟨_, hnext, rfl, rfl, rfl, rfl, rfl, fun _ => rfl, rfl⟩

end Sys2Proof.Spec
end

section
/-! SUPPORT. What one instruction can change, said once over the ten shapes of `exec_shape`, and the writes on a step's
access list; and the statements of the family spec/47_step_pc.md. -/

namespace Sys2Proof.Machine

/-! ### What an instruction changes -/

/-- At least two of A, X and Y are the same in `t` as in `s`. -/
def OneOfAXYChanged (s t : State) : Prop :=
  (t.x = s.x ∧ t.y = s.y) ∨ (t.a = s.a ∧ t.y = s.y) ∨ (t.a = s.a ∧ t.x = s.x)

/-- The address `b` is the effective address of `i` at `s`, and `i` is ASL in its memory form: the one way in which an
instruction comes to write memory (R175). -/
def AslWritesTo (i : Instr) (s : State) (b : Addr) : Prop :=
  ∃ m, i.mnemonic = .ASL ∧ i.operand = .src (.mem m) ∧ b = (resolveMem m s).ea

/-- What R180 lets an instruction change between `s` and `t`, besides PC and the cycle total. -/
structure LittleChanged (i : Instr) (s t : State) : Prop where
  registers : OneOfAXYChanged s t
  flags : Spec.FlagsKept (Spec.flagsWritten i.mnemonic) s t
  memory : ∀ b, t.mem.read b ≠ s.mem.read b → AslWritesTo i s b

/-- A write changes no byte but the one at its address (R47). -/
theorem Memory.eq_of_write_changes {m : Memory} {a b : Addr} {v : Byte} (h : (m.write a v).read b ≠ m.read b) :
    b = a := by
  by_contra hb
  exact h (m.read_write_ne hb v)

/-- An instruction that hands on the memory it got changes no byte. -/
theorem changes_no_byte {i : Instr} {s t : State} (hmem : t.mem = s.mem) (b : Addr)
    (hchanged : t.mem.read b ≠ s.mem.read b) : AslWritesTo i s b :=
  absurd (congrArg (·.read b) hmem) hchanged

/-- The flag of a flag instruction is among those its mnemonic writes (R150 to R156). -/
theorem flag_mem_flagsWritten : ∀ row ∈ [(.CLC, .C, false), (.CLD, .D, false), (.CLI, .I, false), (.CLV, .V, false),
    (.SEC, .C, true), (.SED, .D, true), (.SEI, Flag.I, true)], row.2.1 ∈ Spec.flagsWritten row.1 := by decide

/-- Every instruction changes as little as R180 says. -/
theorem exec_changes_little {i : Instr} {s t : State} (h : exec i s = .next t) : LittleChanged i s t := by
  generalize hg : exec i = g at h
  cases hg ▸ exec_shape i with
  | lda x b hm =>
    obtain rfl := (loadA_next_iff x b s t).1 h
    exact ⟨.inl ⟨rfl, rfl⟩, hm ▸ Spec.flagsKept_setZN rfl, changes_no_byte rfl⟩
  | ldx x b hm =>
    obtain rfl := (loadX_next_iff x b s t).1 h
    exact ⟨.inr (.inl ⟨rfl, rfl⟩), hm ▸ Spec.flagsKept_setZN rfl, changes_no_byte rfl⟩
  | ldy x b hm =>
    obtain rfl := (loadY_next_iff x b s t).1 h
    exact ⟨.inr (.inr ⟨rfl, rfl⟩), hm ▸ Spec.flagsKept_setZN rfl, changes_no_byte rfl⟩
  | adc x b hm =>
    obtain rfl := (addToA_next_iff x b s t).1 h
    exact ⟨.inl ⟨rfl, rfl⟩, hm ▸ Spec.flagsKept_flagsOfAdd rfl, changes_no_byte rfl⟩
  | and x b hm =>
    obtain rfl := (andToA_next_iff x b s t).1 h
    exact ⟨.inl ⟨rfl, rfl⟩, hm ▸ Spec.flagsKept_setZN rfl, changes_no_byte rfl⟩
  | aslAcc hm =>
    obtain rfl := (execAslAcc_next_iff s t).1 h
    exact ⟨.inl ⟨rfl, rfl⟩, hm ▸ Spec.flagsKept_flagsOfShift rfl, changes_no_byte rfl⟩
  | aslMem m b hm ho =>
    obtain rfl := (shiftMem_next_iff m b s t).1 h
    exact ⟨.inl ⟨rfl, rfl⟩, hm ▸ Spec.flagsKept_flagsOfShift rfl,
      fun _ hchanged => ⟨m, hm, ho, Memory.eq_of_write_changes hchanged⟩⟩
  | branch d f v =>
    obtain rfl := (branchIf_next_iff (getFlag f s.p == v) d s t).1 h
    exact ⟨.inl ⟨rfl, rfl⟩, fun _ _ => rfl, changes_no_byte rfl⟩
  | flag f v hrow =>
    obtain rfl := (writeFlag_next_iff f v s t).1 h
    exact ⟨.inl ⟨rfl, rfl⟩, AgreeOutside.setFlag_self (flag_mem_flagsWritten _ hrow) v s.p, changes_no_byte rfl⟩
  | nop =>
    obtain rfl := (execNop_next_iff s t).1 h
    exact ⟨.inl ⟨rfl, rfl⟩, fun _ _ => rfl, changes_no_byte rfl⟩

/-- No mnemonic writes B or bit 5 (R16). -/
theorem flagsWritten_subset (m : Mnemonic) : Spec.flagsWritten m ⊆ [.C, .Z, .I, .D, .V, .N] := by
  cases m <;> decide

/-! ### The writes on the access list -/

theorem readsFrom_writes : ∀ (n : Nat) (a : Addr), (readsFrom n a).filter Access.isWrite = []
  | 0, _ => rfl
  | n + 1, a => readsFrom_writes n (a + 1)

theorem pointerReads_writes (m : MemMode) (s : State) : (pointerReads m s).filter Access.isWrite = [] := by
  cases m <;> rfl

/-- Of the accesses to a memory operand, the write of ASL is the only write (R36, R85). -/
theorem operandAccesses_writes (m : Mnemonic) (mode : MemMode) (s : State) :
    (operandAccesses m (.src (.mem mode)) s).filter Access.isWrite =
      if m = .ASL then [.wr (resolveMem mode s).ea] else [] := by
  rw [operandAccesses, List.filter_append, List.filter_append, pointerReads_writes]
  split <;> rfl

/-- The instruction bytes are read only, so a step's writes are those of its operand (R46). -/
theorem stepAccesses_writes {s : State} {i : Instr} (h : fetch s = .ok i) :
    (stepAccesses s).filter Access.isWrite = (operandAccesses i.mnemonic i.operand s).filter Access.isWrite := by
  rw [stepAccesses, h, List.filter_append, readsFrom_writes, List.nil_append]

/-- A write on the list is that of ASL on memory, and it is the only one (R175). -/
theorem operandAccesses_wr_is_asl {i : Instr} {s : State} {a : Addr}
    (h : .wr a ∈ (operandAccesses i.mnemonic i.operand s).filter Access.isWrite) :
    AslWritesTo i s a ∧ (operandAccesses i.mnemonic i.operand s).filter Access.isWrite = [.wr a] := by
  generalize ho : i.operand = o at h ⊢
  match o with
  | .imp | .acc | .rel _ | .src (.imm _) => simp [operandAccesses] at h
  | .src (.mem m) =>
    rw [operandAccesses_writes] at h ⊢
    split at h
    next hm =>
      obtain rfl : a = (resolveMem m s).ea := by simpa using h
      exact ⟨⟨m, hm, ho, rfl⟩, if_pos hm⟩
    next => exact absurd h List.not_mem_nil

/-- At an unassigned byte the list has no write (R191). -/
theorem fetch_ok_of_wr {s : State} {a : Addr} (h : .wr a ∈ stepAccesses s) : ∃ i, fetch s = .ok i := by
  cases hf : fetch s with
  | ok i => exact ⟨i, rfl⟩
  | error e => simp [stepAccesses, hf] at h

end Sys2Proof.Machine

namespace Sys2Proof.Spec

open Sys2Proof.Machine

/-- Settles O44: an unassigned byte faults; otherwise the instruction fetched completes and changes as little as
`exec_changes_little` says, where a changed byte determines the memory form of ASL and its address. -/
theorem stepIsTotalAndChangesLittle : Obligations.StepIsTotalAndChangesLittle := by
  intro s
  cases hl : lookupOpcode (opcodeAtPC s) with
  | none => exact .inl (step_of_lookup_none hl)
  | some r =>
    obtain ⟨i, -, hfetch, -⟩ := fetch_assigned hl
    obtain ⟨t, hexec⟩ := exec_completes i s
    obtain ⟨hregisters, hflags, hmemory⟩ := exec_changes_little hexec
    obtain ⟨hsp, -⟩ := exec_sp_inert 0 hexec
    have hsix : FlagsKept [.C, .Z, .I, .D, .V, .N] s t :=
      fun f hf => hflags f fun hwritten => hf (flagsWritten_subset i.mnemonic hwritten)
    refine .inr ⟨t, i, step_next_iff.2 ⟨i, hfetch, hexec⟩, hfetch, hregisters, hsix, hsp,
      fun m hm ho b hb => ?asl, fun hno b => ?other⟩
    case asl =>
      by_contra hchanged
      obtain ⟨m', -, ho', hb'⟩ := hmemory b hchanged
      obtain rfl : m = m' := by simpa [ho] using ho'
      exact hb hb'
    case other =>
      by_contra hchanged
      obtain ⟨m, hm, ho, -⟩ := hmemory b hchanged
      simp [hm, ho] at hno

/-- Settles O45: the bytes by `exec_changes_little`, the access list by the writes among its operand accesses. -/
theorem onlyAslWritesMemory : Obligations.OnlyAslWritesMemory := by
  refine ⟨fun s t b hstep hchanged => ?bytes, fun s a hwr => ?list⟩
  case bytes =>
    obtain ⟨i, hfetch, hexec⟩ := step_next_iff.1 hstep
    obtain ⟨m, hasl⟩ := (exec_changes_little hexec).memory b hchanged
    exact ⟨i, m, hfetch, hasl⟩
  case list =>
    obtain ⟨i, hfetch⟩ := fetch_ok_of_wr hwr
    have hwrite := stepAccesses_writes hfetch ▸ List.mem_filter.2 ⟨hwr, rfl⟩
    obtain ⟨⟨m, hm, ho, ha⟩, honce⟩ := operandAccesses_wr_is_asl hwrite
    exact ⟨i, m, hfetch, hm, ho, ha, (stepAccesses_writes hfetch).trans honce⟩

end Sys2Proof.Spec
end

section
/-! SUPPORT. No step is refused; and the statement of the family spec/60_exceptions.md. -/

namespace Sys2Proof.Machine

/-- An unassigned byte faults and a fetched instruction completes: there is no third answer (R180, R190). -/
theorem step_ne_refused (s : State) (r : Refusal) : step s ≠ .refused r := by
  cases hl : lookupOpcode (opcodeAtPC s) with
  | none => simp [step_of_lookup_none hl]
  | some row =>
    obtain ⟨i, -, hfetch, -⟩ := fetch_assigned hl
    obtain ⟨t, hexec⟩ := exec_completes i s
    simp [step_of_fetch_ok hfetch, hexec]

end Sys2Proof.Machine

namespace Sys2Proof.Spec

open Sys2Proof.Machine

/-- Settles O43: the fault and its byte by `step_fault_iff`, and no refusal by `step_ne_refused`. -/
theorem illegalOpcodeIsTheOnlyStop : Obligations.IllegalOpcodeIsTheOnlyStop := by
  refine fun s => ⟨⟨step_of_lookup_none, fun hfault => ?unassigned⟩, fun f hfault => ?reported, step_ne_refused s⟩
  case unassigned =>
    obtain ⟨hunassigned, -⟩ := step_fault_iff.1 hfault
    exact hunassigned
  case reported =>
    obtain ⟨-, hbyte⟩ := step_fault_iff.1 hfault
    exact hbyte

end Sys2Proof.Spec
end

section
/-! SUPPORT. An instruction is determined by its mnemonic, its format and its operand bytes, so the decoder and the
encoder undo each other (R50 to R57); and further statements of the family spec/30_encoding.md. -/

namespace Sys2Proof

/-! ### What determines an instruction -/

/-- The assembler gives an instruction back from its own mnemonic, format and operand bytes (R52, R56). -/
theorem assemble_operandBytes (i : Instr) :
    assemble i.mnemonic i.format (i.operand.bytes.getD 0 0) (i.operand.bytes.getD 1 0) = some i := by
  cases i with
  | ldaAbs a | ldaAbx a | ldaAby a | ldxAbs a | ldxAby a | ldyAbs a | ldyAbx a | adcAbs a | adcAbx a | adcAby a
  | andAbs a | andAbx a | andAby a | aslAbs a | aslAbx a =>
    -- the one field that is put together from two bytes
    have hfield : word16 (highByte a) (lowByte a) = a := word16_high_low a
    simpa [assemble, Instr.mnemonic, Instr.format, Instr.operand, Operand.format, Source.format, MemMode.format,
      Operand.bytes, MemMode.operandBytes] using hfield
  | _ => rfl

theorem instr_ext {i j : Instr} (hm : i.mnemonic = j.mnemonic) (hf : i.format = j.format)
    (hb : i.operand.bytes = j.operand.bytes) : i = j := by
  have hi := assemble_operandBytes i
  rw [hm, hf, hb, assemble_operandBytes j] at hi
  exact (Option.some.inj hi).symm

theorem operandBytes_length (i : Instr) : i.operand.bytes.length = i.format.operandCount := i.operand.bytes_length

/-! ### The encoder -/

/-- An instruction's bytes are its opcode byte, then its operand bytes (R50, R51). -/
theorem encode_eq {i : Instr} {b : Byte} (h : opcodeByte i.mnemonic i.format = some b) :
    encode i = b :: i.operand.bytes := by
  have hwf : i.raw.wellFormed = true := wellFormed_all i
  have hraw : opcodeByte i.raw.mnemonic i.raw.format = some b := h
  rw [encode, RawInstr.encode, hwf, hraw]
  rfl

/-- The opcode byte of an instruction is assigned, to a row of its mnemonic and format. -/
theorem encode_cons (i : Instr) : ∃ r, lookupOpcode r.byte = some r ∧ r.mnemonic = i.mnemonic ∧ r.format = i.format ∧
    encode i = r.byte :: i.operand.bytes := by
  obtain ⟨r, hr, hm, hf, hbyte⟩ := row_of_instr i
  exact ⟨r, lookupOpcode_row r hr, hm, hf, encode_eq hbyte⟩

theorem encode_length (i : Instr) : (encode i).length = i.length := by
  obtain ⟨r, -, -, -, hencode⟩ := encode_cons i
  rw [hencode, List.length_cons, operandBytes_length, Instr.length, Nat.add_comm]

/-! ### The decoder undoes the encoder, and the encoder the decoder -/

/-- A row decodes, on as many operand bytes as its format has, to the instruction that holds those bytes (R52, R54). -/
theorem decode_row {r : OpcodeRow} (hr : lookupOpcode r.byte = some r) (ops rest : List Byte)
    (hl : ops.length = r.format.operandCount) :
    ∃ i, decode (r.byte :: (ops ++ rest)) = .ok (i, rest) ∧
      i.mnemonic = r.mnemonic ∧ i.format = r.format ∧ i.operand.bytes = ops := by
  obtain ⟨i, hdecode, hm, hf⟩ := decode_assigned hr ops rest hl
  obtain ⟨-, -, -, -, hbytes⟩ := decode_ok hdecode
  exact ⟨i, hdecode, hm, hf, (List.append_cancel_right hbytes).symm⟩

theorem decode_encode (i : Instr) (rest : List Byte) : decode (encode i ++ rest) = .ok (i, rest) := by
  obtain ⟨r, hr, hm, hf, hencode⟩ := encode_cons i
  obtain ⟨j, hdecode, hjm, hjf, hjb⟩ := decode_row hr i.operand.bytes rest (hf ▸ operandBytes_length i)
  obtain rfl : j = i := instr_ext (hjm.trans hm) (hjf.trans hf) hjb
  rw [hencode, List.cons_append, hdecode]

theorem encode_of_decode {bytes rest : List Byte} {i : Instr} (h : decode bytes = .ok (i, rest)) :
    bytes = encode i ++ rest := by
  cases bytes with
  | nil => cases h
  | cons b behind =>
    obtain ⟨r, hb, hm, hf, hbehind⟩ := decode_ok h
    obtain ⟨hr, rfl⟩ := lookupOpcode_some hb
    have hbyte : opcodeByte i.mnemonic i.format = some r.byte := by rw [hm, hf, opcodeByte_row r hr]
    rw [encode_eq hbyte, List.cons_append, hbehind]

/-! ### The assigned bytes -/

/-- Every row of the table stands in the nibble table under R57. -/
theorem row_in_assignedNibbles : ∀ r ∈ opcodeTable,
    ∃ row ∈ Spec.assignedNibbles, row.1 = r.byte.toNat / 16 ∧ r.byte.toNat % 16 ∈ row.2 := by decide

/-- Every byte of the nibble table under R57 is assigned. -/
theorem assignedNibbles_assigned : ∀ row ∈ Spec.assignedNibbles, ∀ lo ∈ row.2,
    (lookupOpcode (BitVec.ofNat 8 (row.1 * 16 + lo))).isSome = true := by decide

theorem lookupOpcode_isSome_iff (b : Byte) : (lookupOpcode b).isSome = true ↔
    ∃ row ∈ Spec.assignedNibbles, row.1 = b.toNat / 16 ∧ b.toNat % 16 ∈ row.2 := by
  constructor
  · intro h
    obtain ⟨r, hr⟩ := Option.isSome_iff_exists.1 h
    obtain ⟨hmem, rfl⟩ := lookupOpcode_some hr
    exact row_in_assignedNibbles r hmem
  · rintro ⟨row, hrow, hhigh, hlow⟩
    have h := assignedNibbles_assigned row hrow _ hlow
    rwa [hhigh, Nat.div_add_mod', BitVec.ofNat_toNat, BitVec.setWidth_eq] at h

theorem assigned_count :
    ((List.range 256).filter fun n => (lookupOpcode (BitVec.ofNat 8 n)).isSome).length = 55 := by decide

end Sys2Proof

namespace Sys2Proof.Spec

/-- Settles O2: the bytes decode to an instruction of the same mnemonic, format and operand bytes, which is the same
instruction. -/
theorem decodeOfEncodeIsIdentity : Obligations.DecodeOfEncodeIsIdentity := decode_encode

/-- Settles O3: the opcode byte's row is the encoder's cell, and the bytes taken behind it are the operand bytes. -/
theorem encodeOfDecodeIsIdentity : Obligations.EncodeOfDecodeIsIdentity := fun _ _ _ => encode_of_decode

/-- Settles O4: the table has one row per byte, so `decode_row` applies to each row. -/
theorem tableRowsDecodeToTheirInstruction : Obligations.TableRowsDecodeToTheirInstruction :=
  fun r hr => decode_row (lookupOpcode_row r hr)

/-- Settles O1: the twelve words by evaluation. -/
theorem specExampleBytesDecode : Obligations.SpecExampleBytesDecode :=
  ⟨rfl, rfl, rfl, rfl, rfl, rfl, rfl, rfl, rfl, rfl, rfl, rfl⟩

/-- Settles O5: the rows of the opcode table and the entries of the nibble table name each other's bytes. -/
theorem unassignedBytesAreRejectedByName : Obligations.UnassignedBytesAreRejectedByName :=
  ⟨lookupOpcode_isSome_iff, assigned_count, fun _ rest h => decode_unassigned h rest⟩

end Sys2Proof.Spec
end

section
/-! SUPPORT. Fetching what stands in memory at PC, and the word that the host places there (R171, R212); and further
statements of the families spec/47_step_pc.md and spec/70_reset_and_hazards.md. -/

namespace Sys2Proof

/-! ### The number of a list of bytes -/

theorem tableWord_lt : ∀ bytes : List Byte, Spec.tableWord bytes < 2 ^ (8 * bytes.length)
  | [] => by simp [Spec.tableWord]
  | b :: rest => by
    have hb := b.isLt
    have hrest := tableWord_lt rest
    rw [Spec.tableWord, List.length_cons, Nat.mul_succ, Nat.pow_add]
    omega

theorem tableBytes_zero : ∀ n : Nat, tableBytes 0 n = List.replicate n 0
  | 0 => rfl
  | n + 1 => congrArg (0 :: ·) (tableBytes_zero n)

/-- The bytes of a list's number are the list, with zeros behind it (log 19). -/
theorem tableBytes_tableWord : ∀ (bytes : List Byte) (n : Nat),
    tableBytes (Spec.tableWord bytes) (bytes.length + n) = bytes ++ List.replicate n 0
  | [], n => by rw [List.length_nil, Nat.zero_add]; exact tableBytes_zero n
  | b :: rest, n => by
    have hb := b.isLt
    have hhead : BitVec.ofNat 8 (b.toNat + 256 * Spec.tableWord rest) = b := by
      apply BitVec.eq_of_toNat_eq
      rw [BitVec.toNat_ofNat]
      omega
    have htail : (b.toNat + 256 * Spec.tableWord rest) / 256 = Spec.tableWord rest := by omega
    rw [List.length_cons, Nat.add_right_comm, tableBytes, Spec.tableWord, hhead, htail, tableBytes_tableWord rest n,
      List.cons_append]

theorem Format.operandCount_le (f : Format) : f.operandCount ≤ 2 := by cases f <;> decide

theorem Instr.length_le (i : Instr) : i.length ≤ maxLength := Nat.add_le_add_left i.format.operandCount_le 1

end Sys2Proof

namespace Sys2Proof.Machine

/-! ### The bytes that stand at an address -/

theorem bytesAt_take (s : State) : ∀ {n k : Nat} (a : Addr), n ≤ k → (bytesAt s k a).take n = bytesAt s n a
  | 0, _, _, _ => List.take_zero
  | _ + 1, _ + 1, a, h => congrArg (memRead a s :: ·) (bytesAt_take s (a + 1) (Nat.le_of_succ_le_succ h))

/-- When the bytes of an instruction stand at PC, it is the instruction fetched (R171, R172). -/
theorem fetch_of_bytesAt {s : State} {i : Instr} (h : bytesAt s i.length s.pc = encode i) : fetch s = .ok i := by
  obtain ⟨r, hr, -, hf, hencode⟩ := encode_cons i
  have hopcode : opcodeAtPC s = r.byte := by
    rw [hencode, Instr.length, Nat.add_comm] at h
    exact (List.cons.inj h).1
  have hbytes : instrBytesAtPC s = encode i := by
    rw [← h, instrBytesAtPC, operandBytesAtPC, hopcode, hr, Instr.length, ← hf]
  have hdecode := decode_encode i []
  rw [List.append_nil] at hdecode
  rw [fetch, hbytes, hdecode]

/-- More bytes may stand there than the instruction has (R54). -/
theorem fetch_of_bytesAt_append {s : State} {i : Instr} {rest : List Byte} {n : Nat} (hn : i.length ≤ n)
    (h : bytesAt s n s.pc = encode i ++ rest) : fetch s = .ok i := by
  apply fetch_of_bytesAt
  rw [← bytesAt_take s s.pc hn, h, ← encode_length i, List.take_left]

/-! ### The bytes that the host loads -/

@[simp] theorem hostLoad_pc : ∀ (bytes : List Byte) (a : Addr) (s : State), (hostLoad a bytes s).pc = s.pc
  | [], _, _ => rfl
  | v :: rest, a, s => hostLoad_pc rest (a + 1) (hostWrite a v s)

/-- A load of `n` bytes from `a` on keeps every byte that is not among the `n` addresses. -/
theorem memRead_hostLoad_of_outside {b : Addr} : ∀ (bytes : List Byte) (a : Addr) (s : State),
    (∀ k < bytes.length, b ≠ a + BitVec.ofNat 16 k) → memRead b (hostLoad a bytes s) = memRead b s
  | [], _, _, _ => rfl
  | v :: rest, a, s, h => by
    have hrest : ∀ k < rest.length, b ≠ a + 1 + BitVec.ofNat 16 k := fun k hk hb =>
      h (k + 1) (Nat.succ_lt_succ hk) (by rw [hb, BitVec.add_assoc, BitVec.ofNat_add, BitVec.add_comm 1]; rfl)
    have ha : b ≠ a := fun hb => h 0 (Nat.succ_pos _) (by simpa using hb)
    exact (memRead_hostLoad_of_outside rest (a + 1) (hostWrite a v s) hrest).trans (memRead_memWrite_ne ha v s)

/-- The bytes loaded stand there afterwards, unless the load wraps over its own beginning (R212). -/
theorem bytesAt_hostLoad : ∀ (bytes : List Byte) (a : Addr) (s : State), bytes.length ≤ 65536 →
    bytesAt (hostLoad a bytes s) bytes.length a = bytes
  | [], _, _, _ => rfl
  | v :: rest, a, s, h => by
    rw [List.length_cons] at h
    have hfirst : memRead a (hostLoad (a + 1) rest (hostWrite a v s)) = memRead a (hostWrite a v s) := by
      refine memRead_hostLoad_of_outside rest (a + 1) _ fun k hk hwrap => ?_
      have hone : (1 : Addr).toNat = 1 := rfl
      have hnat := congrArg BitVec.toNat hwrap
      simp only [BitVec.toNat_add, BitVec.toNat_ofNat, hone] at hnat
      omega
    have hrest := bytesAt_hostLoad rest (a + 1) (hostWrite a v s) (by omega)
    rw [List.length_cons, bytesAt, hostLoad, hfirst, hrest]
    exact congrArg (· :: rest) (memRead_memWrite_same a v s)

/-- The word of an instruction, placed at PC, puts the instruction's bytes there with zeros behind them (log 19). -/
theorem bytesAt_withFetchWord (i : Instr) (s : State) :
    bytesAt (s.withFetchWord (8 * i.length) (Spec.tableWord (encode i))) maxLength s.pc =
      encode i ++ List.replicate (maxLength - i.length) 0 := by
  have hword : Spec.tableWord (encode i) % 2 ^ (8 * i.length) = Spec.tableWord (encode i) := by
    rw [← encode_length i]
    exact Nat.mod_eq_of_lt (tableWord_lt _)
  have hcount : (encode i).length + (maxLength - i.length) = maxLength := by
    rw [encode_length, Nat.add_sub_of_le i.length_le]
  have hbytes := tableBytes_tableWord (encode i) (maxLength - i.length)
  rw [hcount] at hbytes
  have hlength : (encode i ++ List.replicate (maxLength - i.length) (0 : Byte)).length = maxLength := by
    rw [List.length_append, List.length_replicate, hcount]
  rw [State.withFetchWord, hword, hbytes]
  have hload := bytesAt_hostLoad (encode i ++ List.replicate (maxLength - i.length) 0) s.pc s
    (by rw [hlength]; decide)
  rwa [hlength] at hload

end Sys2Proof.Machine

namespace Sys2Proof.Spec

open Sys2Proof.Machine

/-- Settles O42: the three bytes at PC begin with the instruction's own bytes, so it is the instruction fetched. -/
theorem stepRunsTheDecodedInstruction : Obligations.StepRunsTheDecodedInstruction := by
  intro s i rest hdecode
  have htwo : s.pc + 2 = s.pc + 1 + 1 := (BitVec.add_assoc s.pc 1 1).symm
  have hbytes : bytesAt s maxLength s.pc = encode i ++ rest := by
    rw [← encode_of_decode hdecode, htwo]
    rfl
  exact step_of_fetch_ok (fetch_of_bytesAt_append i.length_le hbytes)

/-- Settles O8: the bytes at PC are then the instruction's own, so it is the instruction fetched. -/
theorem placedWordIsRunByTheNextStep : Obligations.PlacedWordIsRunByTheNextStep := by
  intro i s
  have hpc : (s.withFetchWord (8 * i.length) (tableWord (encode i))).pc = s.pc := hostLoad_pc _ _ _
  exact step_of_fetch_ok (fetch_of_bytesAt_append i.length_le (hpc ▸ bytesAt_withFetchWord i s))

end Sys2Proof.Spec
end

section
/-! SUPPORT. The accesses of a step by format, and what an instruction reads and writes (R36, R46, R84); and further
statements of the families spec/20_memory.md, spec/40_addressing_modes.md and spec/70_reset_and_hazards.md. -/

namespace Sys2Proof.Machine

/-! ### The accesses by format -/

theorem stepAccesses_of_fetch_ok {s : State} {i : Instr} (h : fetch s = .ok i) :
    stepAccesses s = readsFrom i.length s.pc ++ operandAccesses i.mnemonic i.operand s := by
  rw [stepAccesses, h]

theorem stepAccesses_of_lookup_none {s : State} (h : lookupOpcode (opcodeAtPC s) = none) :
    stepAccesses s = [.rd s.pc] := by
  rw [stepAccesses, fetch_unassigned h]

theorem readsFrom_two (a : Addr) : readsFrom 2 a = [.rd a, .rd (a + 1)] := rfl

theorem readsFrom_three (a : Addr) : readsFrom 3 a = [.rd a, .rd (a + 1), .rd (a + 2)] := by
  have htwo : a + 2 = a + 1 + 1 := (BitVec.add_assoc a 1 1).symm
  rw [htwo]
  rfl

/-- A form without operand bytes has no operand to access (R71, R72). -/
theorem operandAccesses_of_no_operandBytes {o : Operand} (h : o.format.operandCount = 0) (m : Mnemonic) (s : State) :
    operandAccesses m o s = [] := by
  match o with
  | .imp | .acc => rfl
  | .rel _ | .src (.imm _) => cases h
  | .src (.mem mode) => cases mode <;> cases h

/-- The immediate and the relative form take their operand from the instruction (R73, R80). -/
theorem operandAccesses_of_imm_or_rel {o : Operand} (h : o.format = .IMM ∨ o.format = .REL) (m : Mnemonic) (s : State) :
    o.format.operandCount = 1 ∧ operandAccesses m o s = [] := by
  match o with
  | .imp | .acc => simp [Operand.format] at h
  | .rel _ | .src (.imm _) => exact ⟨rfl, rfl⟩
  | .src (.mem mode) => cases mode <;> simp [Operand.format, Source.format, MemMode.format] at h

/-- A memory form has one operand byte or two (R51). -/
theorem length_of_mem {i : Instr} {m : MemMode} (h : i.operand = .src (.mem m)) : i.length = 2 ∨ i.length = 3 := by
  rw [Instr.length, Instr.format, h]
  cases m with
  | zp | zpx | zpy | izx | izy => exact .inl rfl
  | abs | abx | aby => exact .inr rfl

/-- The instruction bytes of a memory form, the third where there is one. -/
theorem readsFrom_of_mem {i : Instr} {m : MemMode} (h : i.operand = .src (.mem m)) (a : Addr) :
    readsFrom i.length a = [.rd a, .rd (a + 1)] ++ (if i.length = 3 then [.rd (a + 2)] else []) := by
  obtain hl | hl := length_of_mem h <;> rw [hl]
  · exact readsFrom_two a
  · exact readsFrom_three a

/-! ### What an instruction reads and writes -/

/-- The memory after at most one write. -/
def Memory.writeOpt (m : Memory) : Option (Addr × Byte) → Memory
  | none => m
  | some (a, v) => m.write a v

theorem Memory.writeOpt_wf {m : Memory} (h : m.wf = true) : ∀ w : Option (Addr × Byte), (m.writeOpt w).wf = true
  | none => h
  | some (a, v) => m.write_wf a v h

/-- The resolver reads the pointer bytes on its list, and no other byte (R84). -/
theorem resolveMem_of_reads {m : MemMode} {s : State} {image : Memory} (c : CycleCount)
    (h : ∀ a, .rd a ∈ pointerReads m s → image.read a = s.mem.read a) :
    resolveMem m { s with mem := image, cyc := c } = resolveMem m s := by
  cases m with
  | zp z | zpx z | zpy z | abs a | abx a | aby a => rfl
  | izx z | izy z =>
    have hlow := h _ List.mem_cons_self
    have hhigh := h _ (List.mem_cons_of_mem _ List.mem_cons_self)
    simp only [resolveMem, readZP16, memRead, hlow, hhigh]

theorem sourcePenalty_of_resolveSource {x : Source} {s u : State} (h : resolveSource x u = resolveSource x s) :
    sourcePenalty x u = sourcePenalty x s := by
  rw [sourcePenalty, h, sourcePenalty]

/-- The operand of an instruction reads alike in the memory `image` as in `s`: at every address on its list. -/
def ReadsAlike (i : Instr) (s : State) (image : Memory) : Prop :=
  ∀ a, .rd a ∈ operandAccesses i.mnemonic i.operand s → image.read a = s.mem.read a

section

variable {i : Instr} {s : State} {image : Memory}

theorem ReadsAlike.resolveMem {m : MemMode} (h : ReadsAlike i s image) (ho : i.operand = .src (.mem m))
    (c : CycleCount) : resolveMem m { s with mem := image, cyc := c } = resolveMem m s :=
  resolveMem_of_reads c fun a ha => h a (by rw [ho]; exact List.mem_append_left _ (List.mem_append_left _ ha))

theorem ReadsAlike.read_ea {m : MemMode} (h : ReadsAlike i s image) (ho : i.operand = .src (.mem m)) :
    image.read (Machine.resolveMem m s).ea = s.mem.read (Machine.resolveMem m s).ea :=
  h _ (by rw [ho]; exact List.mem_append_left _ (List.mem_append_right _ List.mem_cons_self))

theorem ReadsAlike.sourceValue {x : Source} (h : ReadsAlike i s image) (ho : i.operand = .src x) (c : CycleCount) :
    sourceValue x { s with mem := image, cyc := c } = sourceValue x s := by
  cases x with
  | imm v => rfl
  | mem m => rw [Machine.sourceValue, h.resolveMem ho, memRead, h.read_ea ho]; rfl

theorem ReadsAlike.sourcePenalty {x : Source} (h : ReadsAlike i s image) (ho : i.operand = .src x) (c : CycleCount) :
    sourcePenalty x { s with mem := image, cyc := c } = sourcePenalty x s := by
  cases x with
  | imm v => rfl
  | mem m => exact sourcePenalty_of_resolveSource (congrArg Resolved.address (h.resolveMem ho c))

end

/-- An instruction whose operand is no memory byte, or that is no ASL, writes no memory (R175). -/
theorem written_none {i : Instr} {s : State} (h : i.mnemonic ≠ .ASL ∨ ∀ m, i.operand ≠ .src (.mem m)) (a : Addr) :
    AslWritesTo i s a ↔ ∃ v, (none : Option (Addr × Byte)) = some (a, v) := by
  refine iff_of_false (fun ⟨m, hm, ho, _⟩ => ?_) nofun
  obtain h | h := h
  · exact h hm
  · exact h m ho

/-- An instruction depends on memory at the addresses on its list only, and on the cycle total not at all: with the
memory `image` and the total `c` in their place it takes the same `n` cycles and does the same write `w`, if any
(R46, R219). -/
theorem exec_runs_alike {i : Instr} {s t : State} {image : Memory} (c : CycleCount) (hreads : ReadsAlike i s image)
    (h : exec i s = .next t) :
    ∃ n w, t.cyc = s.cyc + n ∧ t.mem = s.mem.writeOpt w ∧ (∀ a, AslWritesTo i s a ↔ ∃ v, w = some (a, v)) ∧
      exec i { s with mem := image, cyc := c } = .next { t with mem := image.writeOpt w, cyc := c + n } := by
  generalize hg : exec i = g at h ⊢
  cases hg ▸ exec_shape i with
  | lda x b hm ho =>
    obtain rfl := (loadA_next_iff x b s t).1 h
    exact ⟨_, none, rfl, rfl, written_none (.inl (by simp [hm])),
      by simp [loadA_next_iff, hreads.sourceValue ho, hreads.sourcePenalty ho, Memory.writeOpt]⟩
  | ldx x b hm ho =>
    obtain rfl := (loadX_next_iff x b s t).1 h
    exact ⟨_, none, rfl, rfl, written_none (.inl (by simp [hm])),
      by simp [loadX_next_iff, hreads.sourceValue ho, hreads.sourcePenalty ho, Memory.writeOpt]⟩
  | ldy x b hm ho =>
    obtain rfl := (loadY_next_iff x b s t).1 h
    exact ⟨_, none, rfl, rfl, written_none (.inl (by simp [hm])),
      by simp [loadY_next_iff, hreads.sourceValue ho, hreads.sourcePenalty ho, Memory.writeOpt]⟩
  | adc x b hm ho =>
    obtain rfl := (addToA_next_iff x b s t).1 h
    exact ⟨_, none, rfl, rfl, written_none (.inl (by simp [hm])),
      by simp [addToA_next_iff, hreads.sourceValue ho, hreads.sourcePenalty ho, Memory.writeOpt]⟩
  | and x b hm ho =>
    obtain rfl := (andToA_next_iff x b s t).1 h
    exact ⟨_, none, rfl, rfl, written_none (.inl (by simp [hm])),
      by simp [andToA_next_iff, hreads.sourceValue ho, hreads.sourcePenalty ho, Memory.writeOpt]⟩
  | aslAcc hm ho =>
    obtain rfl := (execAslAcc_next_iff s t).1 h
    exact ⟨_, none, rfl, rfl, written_none (.inr (by simp [ho])), rfl⟩
  | aslMem m b hm ho =>
    obtain rfl := (shiftMem_next_iff m b s t).1 h
    refine ⟨_, some ((resolveMem m s).ea, _), rfl, rfl, fun a => ?written, ?exec⟩
    case written =>
      simp [AslWritesTo, hm, ho, eq_comm]
    case exec =>
      simp [shiftMem_next_iff, hreads.resolveMem ho, hreads.read_ea ho, Memory.writeOpt]
  | branch d f v hrow ho =>
    obtain rfl := (branchIf_next_iff (getFlag f s.p == v) d s t).1 h
    exact ⟨_, none, rfl, rfl, written_none (.inr (by simp [ho])), (branchIf_next_iff _ d _ _).2 rfl⟩
  | flag f v hrow ho =>
    obtain rfl := (writeFlag_next_iff f v s t).1 h
    exact ⟨_, none, rfl, rfl, written_none (.inr (by simp [ho])), rfl⟩
  | nop hm ho =>
    obtain rfl := (execNop_next_iff s t).1 h
    exact ⟨_, none, rfl, rfl, written_none (.inr (by simp [ho])), rfl⟩

/-- A read memory reads alike as itself. -/
theorem readsAlike_self (i : Instr) (s : State) : ReadsAlike i s s.mem := fun _ _ => rfl

theorem exec_keeps_wf {i : Instr} {s t : State} (h : exec i s = .next t) (hwf : s.mem.wf = true) : t.mem.wf = true := by
  obtain ⟨n, w, -, hmem, -⟩ := exec_runs_alike s.cyc (readsAlike_self i s) h
  rw [hmem]
  exact Memory.writeOpt_wf hwf w

/-- No instruction reads the cycle total (R219). -/
theorem exec_cyc_inert {i : Instr} {s t : State} (c : CycleCount) (h : exec i s = .next t) :
    ∃ c', exec i { s with cyc := c } = .next { t with cyc := c' } := by
  obtain ⟨n, w, -, hmem, -, hexec⟩ := exec_runs_alike c (readsAlike_self i s) h
  rw [← hmem] at hexec
  exact ⟨c + n, hexec⟩

/-! ### Fetching reads the bytes on its list only -/

theorem fetch_cyc (c : CycleCount) (s : State) : fetch { s with cyc := c } = fetch s := fetch_congr rfl rfl

theorem bytesAt_of_reads {s u : State} : ∀ (n : Nat) (a : Addr),
    (∀ b, .rd b ∈ readsFrom n a → u.mem.read b = s.mem.read b) → bytesAt u n a = bytesAt s n a
  | 0, _, _ => rfl
  | n + 1, a, h => by
    have hfirst : memRead a u = memRead a s := h a List.mem_cons_self
    rw [bytesAt, bytesAt, hfirst, bytesAt_of_reads n (a + 1) fun b hb => h b (List.mem_cons_of_mem _ hb)]

/-- Every step reads the byte at PC (R171, R191). -/
theorem rd_pc_mem_stepAccesses (s : State) : .rd s.pc ∈ stepAccesses s := by
  cases hf : fetch s with
  | error e => rw [stepAccesses, hf]; exact List.mem_cons_self
  | ok i =>
    rw [stepAccesses_of_fetch_ok hf, Instr.length, Nat.add_comm]
    exact List.mem_cons_self

/-- The instruction fetched is that of the row of the opcode byte (R172). -/
theorem lookupOpcode_of_fetch_ok {s : State} {i : Instr} (h : fetch s = .ok i) :
    ∃ r, lookupOpcode (opcodeAtPC s) = some r ∧ i.mnemonic = r.mnemonic ∧ i.format = r.format := by
  cases hl : lookupOpcode (opcodeAtPC s) with
  | none => simp [fetch_unassigned hl] at h
  | some r =>
    obtain ⟨j, -, hfetch, hm, hf⟩ := fetch_assigned hl
    obtain rfl : j = i := Except.ok.inj (hfetch.symm.trans h)
    exact ⟨r, rfl, hm, hf⟩

/-- As many bytes are fetched as the instruction is long (R54). -/
theorem fetch_length {s : State} {i : Instr} (h : fetch s = .ok i) : i.length = 1 + operandBytesAtPC s := by
  obtain ⟨r, hl, -, hf⟩ := lookupOpcode_of_fetch_ok h
  rw [Instr.length, hf, operandBytesAtPC, hl]

theorem fetch_of_reads {s u : State} {i : Instr} (hpc : u.pc = s.pc) (hf : fetch s = .ok i)
    (h : ∀ b, .rd b ∈ readsFrom i.length s.pc → u.mem.read b = s.mem.read b) : fetch u = .ok i := by
  have hbytes : bytesAt u i.length s.pc = bytesAt s i.length s.pc := bytesAt_of_reads i.length s.pc h
  have hopcode : opcodeAtPC u = opcodeAtPC s := by
    rw [Instr.length, Nat.add_comm] at hbytes
    rw [opcodeAtPC, hpc]
    exact (List.cons.inj hbytes).1
  rw [← hf, fetch, fetch, instrBytesAtPC, instrBytesAtPC, operandBytesAtPC, hopcode, hpc, ← operandBytesAtPC,
    ← fetch_length hf, hbytes]

/-! ### The writes on the list -/

/-- The writes on a step's list are those of ASL on memory (R175). -/
theorem wr_mem_stepAccesses_iff {s : State} {i : Instr} (h : fetch s = .ok i) (a : Addr) :
    .wr a ∈ stepAccesses s ↔ AslWritesTo i s a := by
  have hlist : .wr a ∈ stepAccesses s ↔ .wr a ∈ (operandAccesses i.mnemonic i.operand s).filter Access.isWrite := by
    rw [← stepAccesses_writes h, List.mem_filter]
    exact (and_iff_left rfl).symm
  rw [hlist]
  constructor
  · exact fun hwr => (operandAccesses_wr_is_asl hwr).1
  · rintro ⟨m, hm, ho, rfl⟩
    rw [ho, operandAccesses_writes, if_pos hm]
    exact List.mem_cons_self

end Sys2Proof.Machine

namespace Sys2Proof.Spec

open Sys2Proof.Machine

/-- Settles O40: the fault and the instruction fetched depend on PC and memory alone, and no instruction reads the
cycle total. -/
theorem nothingReadsTheCycleTotal : Obligations.NothingReadsTheCycleTotal := by
  refine fun s c => ⟨fun f hfault => ?fault, fun t hstep => ?next⟩
  case fault =>
    have hunassigned := step_fault_iff.1 hfault
    exact step_fault_iff.2 hunassigned
  case next =>
    obtain ⟨i, hfetch, hexec⟩ := step_next_iff.1 hstep
    obtain ⟨c', hexec'⟩ := exec_cyc_inert c hexec
    exact ⟨c', step_next_iff.2 ⟨i, (fetch_cyc c s).trans hfetch, hexec'⟩⟩

/-- Settles O46: the list is the reads of the instruction bytes, as many as the format says, and the operand's
accesses. -/
theorem stepAccessesByFormat : Obligations.StepAccessesByFormat := by
  refine fun s => ⟨stepAccesses_of_lookup_none, fun i hfetch => ?assigned, fun _ => ⟨rfl, rfl, rfl⟩,
    fun _ => ⟨rfl, rfl, rfl, rfl, rfl⟩⟩
  rw [stepAccesses_of_fetch_ok hfetch]
  refine ⟨fun hcount => ?none, fun hformat => ?one, fun m ho => ?memory⟩
  case none => rw [operandAccesses_of_no_operandBytes hcount, Instr.length, hcount]; rfl
  case one =>
    obtain ⟨hcount, hnone⟩ := operandAccesses_of_imm_or_rel hformat i.mnemonic s
    rw [hnone, Instr.length, Instr.format, hcount]
    rfl
  case memory =>
    rw [readsFrom_of_mem ho, ho, operandAccesses]
    simp only [List.append_assoc]

/-- Settles O47: the same instruction is fetched, it runs alike, and the one write it may do is the one on the list. -/
theorem stepDependsOnlyOnItsListedReads : Obligations.StepDependsOnlyOnItsListedReads := by
  refine fun s image c hreads => ⟨fun f hfault => ?fault, fun t hstep => ?next⟩
  case fault =>
    have hopcode : opcodeAtPC { s with mem := image, cyc := c } = opcodeAtPC s := hreads s.pc (rd_pc_mem_stepAccesses s)
    rw [step_fault_iff, hopcode]
    exact step_fault_iff.1 hfault
  case next =>
    obtain ⟨i, hfetch, hexec⟩ := step_next_iff.1 hstep
    rw [stepAccesses_of_fetch_ok hfetch] at hreads
    have hfetch' : fetch { s with mem := image, cyc := c } = .ok i :=
      fetch_of_reads (s := s) rfl hfetch fun b hb => hreads b (List.mem_append_left _ hb)
    have hoperand : ReadsAlike i s image := fun a ha => hreads a (List.mem_append_right _ ha)
    obtain ⟨n, w, hcyc, hmem, hwritten, hexec'⟩ := exec_runs_alike c hoperand hexec
    refine ⟨_, step_next_iff.2 ⟨i, hfetch', hexec'⟩, rfl, ?cycles, fun a ha => ?same, fun a ha => ?kept⟩
    case cycles =>
      rw [hcyc]
      exact (add_sub_cancel_left c n).trans (add_sub_cancel_left s.cyc n).symm
    case same =>
      obtain ⟨v, rfl⟩ := (hwritten a).1 ((wr_mem_stepAccesses_iff hfetch a).1 ha)
      rw [hmem]
      exact (image.read_write_same a v).trans (s.mem.read_write_same a v).symm
    case kept =>
      rw [wr_mem_stepAccesses_iff hfetch, hwritten] at ha
      rw [hmem]
      cases w with
      | none => exact ⟨rfl, rfl⟩
      | some write =>
        have hne : a ≠ write.1 := fun h => ha ⟨write.2, by rw [h]⟩
        exact ⟨s.mem.read_write_ne hne write.2, image.read_write_ne hne write.2⟩

end Sys2Proof.Spec
end

section
/-! SUPPORT. The invariant of the states that start from reset, and what every step and every run keeps (R14, R17, R18);
runs unfolded by one step (R191); and further statements of the families spec/10_state.md,
spec/60_exceptions.md and spec/70_reset_and_hazards.md. -/

namespace Sys2Proof.Machine

/-- What no step changes: SP, B, bit 5 of `P`, and that the memory list is canonical. -/
structure Kept (s t : State) : Prop where
  sp : t.sp = s.sp
  brk : getFlag .B t.p = getFlag .B s.p
  bit5 : getFlag .U t.p = getFlag .U s.p
  wf : s.mem.wf = true → t.mem.wf = true

theorem Kept.refl (s : State) : Kept s s := ⟨rfl, rfl, rfl, id⟩

theorem Kept.trans {s t u : State} (h : Kept s t) (k : Kept t u) : Kept s u :=
  ⟨k.sp.trans h.sp, k.brk.trans h.brk, k.bit5.trans h.bit5, k.wf ∘ h.wf⟩

/-- A flag that no rule names is not among those an instruction writes (R16). -/
theorem not_mem_flagsWritten {f : Flag} (hf : f ∉ [.C, .Z, .I, .D, .V, .N]) (m : Mnemonic) :
    f ∉ Spec.flagsWritten m :=
  fun h => hf (flagsWritten_subset m h)

theorem exec_kept {i : Instr} {s t : State} (h : exec i s = .next t) : Kept s t where
  sp := (exec_sp_inert 0 h).1
  brk := (exec_changes_little h).flags .B (not_mem_flagsWritten (by decide) i.mnemonic)
  bit5 := (exec_changes_little h).flags .U (not_mem_flagsWritten (by decide) i.mnemonic)
  wf := exec_keeps_wf h

theorem step_kept {s t : State} (h : step s = .next t) : Kept s t := by
  obtain ⟨i, -, hexec⟩ := step_next_iff.1 h
  exact exec_kept hexec

/-- A run of `n + 1` steps that completes is one step, then a run of `n` steps. -/
theorem core_run_succ_eq_next {n : Nat} {s t : State} (h : core.run (n + 1) s = .next t) :
    ∃ u, step s = .next u ∧ core.run n u = .next t := by
  cases hs : step s with
  | next u => exact ⟨u, rfl, core_run_succ_next hs n ▸ h⟩
  | fault f => rw [core_run_succ_fault hs] at h; cases h
  | refused r => exact absurd hs (step_ne_refused s r)

theorem run_kept : ∀ (n : Nat) {s t : State}, core.run n s = .next t → Kept s t
  | 0, s, t, h => by
    obtain rfl : s = t := Host.Outcome.next.inj h
    exact Kept.refl s
  | n + 1, s, t, h => by
    obtain ⟨u, hstep, hrun⟩ := core_run_succ_eq_next h
    exact (step_kept hstep).trans (run_kept n hrun)

theorem State.inv_iff (s : State) : s.inv = true ↔ s.mem.wf = true ∧ getFlag .U s.p = true := Bool.and_eq_true_iff

/-- A safe run of `n + 1` steps is a step that completes, then a safe run of `n` steps. -/
theorem safeFor_succ_iff (n : Nat) (s : State) : SafeFor (n + 1) s ↔ ∃ t, step s = .next t ∧ SafeFor n t := by
  constructor
  · intro h
    obtain ⟨_, hone⟩ := h 1 (Nat.le_add_left 1 n)
    obtain ⟨t, hstep, -⟩ := core_run_succ_eq_next hone
    refine ⟨t, hstep, fun k hk => ?_⟩
    rw [← core_run_succ_next hstep]
    exact h (k + 1) (Nat.succ_le_succ hk)
  · rintro ⟨t, hstep, h⟩ k hk
    cases k with
    | zero => exact ⟨s, rfl⟩
    | succ k =>
      rw [core_run_succ_next hstep]
      exact h k (Nat.le_of_succ_le_succ hk)

/-- A step completes only at an assigned byte (R190). -/
theorem lookupOpcode_ne_none_of_step {s t : State} (h : step s = .next t) : lookupOpcode (memRead s.pc s) ≠ none :=
  fun hl => by cases (step_of_lookup_none hl).symm.trans h

end Sys2Proof.Machine

namespace Sys2Proof.Spec

open Sys2Proof.Machine

/-- Settles O51: no instruction names bit 5, and the one write of a step keeps the canonical form. -/
theorem stepKeepsTheInvariant : Obligations.StepKeepsTheInvariant := by
  intro s t hinv hstep
  obtain ⟨hwf, hbit5⟩ := s.inv_iff.1 hinv
  have hkept := step_kept hstep
  exact t.inv_iff.2 ⟨hkept.wf hwf, hkept.bit5.trans hbit5⟩

/-- Settles O52, by induction on the number of steps. -/
theorem runsKeepSpBreakAndBitFive : Obligations.RunsKeepSpBreakAndBitFive := by
  intro n s t hrun
  obtain ⟨hsp, hbrk, hbit5, hwf⟩ := run_kept n hrun
  exact ⟨hsp, hbrk, hbit5, hwf⟩

/-- Settles O53: a run unfolds by its first step, which completes only at an assigned byte. -/
theorem safeRunsUnfoldStepByStep : Obligations.SafeRunsUnfoldStepByStep := by
  intro n s
  rw [safeFor_succ_iff]
  exact exists_congr fun t => and_congr_right fun hstep =>
    (and_iff_right (lookupOpcode_ne_none_of_step hstep)).symm

/-- Settles O49: the launch state holds what it is given, and an unassigned byte at PC stops the first step. -/
theorem firstFetchAfterResetIsAtZero : Obligations.FirstFetchAfterResetIsAtZero :=
  ⟨fun r image => ⟨rfl, fun _ => rfl, rfl, rfl, step_of_lookup_none (s := State.launch r image)⟩, fun _ => rfl⟩

/-- Settles O50: no cell is listed, and `P` is 0x20. -/
theorem resetMeetsTheInvariant : Obligations.ResetMeetsTheInvariant :=
  State.reset.inv_iff.2 ⟨Memory.empty_wf, rfl⟩

end Sys2Proof.Spec
end

section
/-! SUPPORT. The canonical form is determined by what the memory reads, and every image has one (log 1); 16-bit reads in
numbers (R33, R34); and further statements of the families spec/00_scope.md and spec/20_memory.md. -/

namespace Sys2Proof.Machine

/-! ### The canonical form is unique -/

theorem cellsWf_cons_iff {lo k : Nat} {v : Byte} {rest : List Host.Cell} :
    cellsWf lo ((k, v) :: rest) = true ↔
      lo ≤ k ∧ k < Config.memorySize ∧ v ≠ Memory.unlisted ∧ cellsWf (k + 1) rest = true := by
  simp only [cellsWf, Bool.and_eq_true, decide_eq_true_eq, bne_iff_ne, and_assoc]

theorem cellsWf_le_key : ∀ {lo : Nat} {cells : List Host.Cell}, cellsWf lo cells = true → ∀ c ∈ cells, lo ≤ c.1
  | lo, (k, v) :: rest, h, c, hc => by
    obtain ⟨hlo, -, -, hrest⟩ := cellsWf_cons_iff.1 h
    obtain rfl | hc := List.mem_cons.1 hc
    · exact hlo
    · exact hlo.trans ((Nat.le_succ k).trans (cellsWf_le_key hrest c hc))

/-- A canonical list gives no byte to the addresses below its first. -/
theorem cellsRead_of_lt {lo a : Nat} {cells : List Host.Cell} (h : cellsWf lo cells = true) (ha : a < lo) :
    cellsRead cells a = Memory.unlisted :=
  cellsRead_of_not_listed fun c hc => Nat.ne_of_gt (ha.trans_le (cellsWf_le_key h c hc))

theorem cellsRead_head (k : Nat) (v : Byte) (rest : List Host.Cell) : cellsRead ((k, v) :: rest) k = v := if_pos rfl

theorem cellsRead_tail {k a : Nat} (h : k ≠ a) (v : Byte) (rest : List Host.Cell) :
    cellsRead ((k, v) :: rest) a = cellsRead rest a := if_neg h

/-- The first listed address reads a byte that no list beginning above it can give. -/
theorem cells_differ_at_first {lo k : Nat} {v : Byte} {rest cells : List Host.Cell}
    (h : cellsWf lo ((k, v) :: rest) = true) (hcells : cellsWf (k + 1) cells = true) :
    cellsRead ((k, v) :: rest) k ≠ cellsRead cells k := by
  obtain ⟨-, -, hv, -⟩ := cellsWf_cons_iff.1 h
  rwa [cellsRead_head, cellsRead_of_lt hcells k.lt_succ_self]

/-- Two canonical lists that read alike begin with the same cell, and so on. -/
theorem cells_eq_of_read {lo : Nat} : ∀ {cells cells' : List Host.Cell}, cellsWf lo cells = true →
    cellsWf lo cells' = true → (∀ a < Config.memorySize, cellsRead cells a = cellsRead cells' a) → cells = cells'
  | [], [], _, _, _ => rfl
  | [], (k, v) :: rest, _, h', hread => by
    obtain ⟨-, hk, -, -⟩ := cellsWf_cons_iff.1 h'
    exact absurd (hread k hk).symm (cells_differ_at_first h' (cells := []) rfl)
  | (k, v) :: rest, [], h, _, hread => by
    obtain ⟨-, hk, -, -⟩ := cellsWf_cons_iff.1 h
    exact absurd (hread k hk) (cells_differ_at_first h (cells := []) rfl)
  | (k, v) :: rest, (k', v') :: rest', h, h', hread => by
    obtain ⟨-, hk, hv, hrest⟩ := cellsWf_cons_iff.1 h
    obtain ⟨-, hk', hv', hrest'⟩ := cellsWf_cons_iff.1 h'
    obtain hlt | rfl | hgt := Nat.lt_trichotomy k k'
    · exact absurd (hread k hk) (cells_differ_at_first h (cellsWf_cons_iff.2 ⟨hlt, hk', hv', hrest'⟩))
    · obtain rfl : v = v' := by simpa only [cellsRead_head] using hread k hk
      have htail : ∀ a < Config.memorySize, cellsRead rest a = cellsRead rest' a := fun a ha => by
        by_cases hka : k = a
        · subst hka
          rw [cellsRead_of_lt hrest k.lt_succ_self, cellsRead_of_lt hrest' k.lt_succ_self]
        · simpa only [cellsRead_tail hka] using hread a ha
      rw [cells_eq_of_read hrest hrest' htail]
    · exact absurd (hread k' hk').symm (cells_differ_at_first h' (cellsWf_cons_iff.2 ⟨hgt, hk, hv, hrest⟩))

theorem Memory.eq_of_read {m n : Memory} (hm : m.wf = true) (hn : n.wf = true) (h : ∀ a, m.read a = n.read a) :
    m = n := by
  have hcells : m.cells = n.cells := by
    refine cells_eq_of_read hm hn fun a ha => ?_
    have haddr : (BitVec.ofNat 16 a).toNat = a := Nat.mod_eq_of_lt ha
    simpa only [Memory.read, haddr] using h (BitVec.ofNat 16 a)
  cases m
  cases n
  exact congrArg Memory.mk hcells

/-! ### Every image is listed -/

/-- The memory that holds the bytes of an image at the addresses below `n`. -/
def imageBelow (image : Addr → Byte) : Nat → Memory
  | 0 => ⟨[]⟩
  | n + 1 => (imageBelow image n).write (BitVec.ofNat 16 n) (image (BitVec.ofNat 16 n))

theorem imageBelow_wf (image : Addr → Byte) : ∀ n, (imageBelow image n).wf = true
  | 0 => Memory.empty_wf
  | n + 1 => Memory.write_wf _ _ _ (imageBelow_wf image n)

theorem imageBelow_read (image : Addr → Byte) : ∀ (n : Nat) (a : Addr), a.toNat < n →
    (imageBelow image n).read a = image a
  | n + 1, a, h => by
    by_cases ha : a = BitVec.ofNat 16 n
    · rw [imageBelow, ha, Memory.read_write_same]
    · have hne : a.toNat ≠ n := fun hn => ha (by rw [← hn, BitVec.ofNat_toNat, BitVec.setWidth_eq])
      rw [imageBelow, Memory.read_write_ne ha, imageBelow_read image n a (by omega)]

/-! ### 16-bit reads -/

theorem addr_add_one (a : Addr) : a + 1 = BitVec.ofNat 16 ((a.toNat + 1) % 65536) := by
  apply BitVec.eq_of_toNat_eq
  rw [BitVec.toNat_add, BitVec.toNat_ofNat]
  exact (Nat.mod_mod _ 65536).symm

/-- `Read16` in numbers: the high byte comes from the next address (R33). -/
theorem read16_toNat (a : Addr) (s : State) :
    (read16 a s).toNat =
      (memRead (BitVec.ofNat 16 ((a.toNat + 1) % 65536)) s).toNat * 256 + (memRead a s).toNat := by
  rw [read16, word16_toNat, addr_add_one]

end Sys2Proof.Machine

namespace Sys2Proof.Spec

open Sys2Proof.Machine

/-- Settles O10: the first cells of two canonical lists that read alike have the same address, since the lower of two
would read as unlisted in the other list. -/
theorem canonicalMemoriesThatReadAlikeAreEqual : Obligations.CanonicalMemoriesThatReadAlikeAreEqual :=
  fun _ _ => Memory.eq_of_read

/-- Settles O11: the image is written address by address. -/
theorem everyMemoryImageIsAvailable : Obligations.EveryMemoryImageIsAvailable :=
  fun image => ⟨imageBelow image 65536, imageBelow_wf image _, fun a => imageBelow_read image _ a a.isLt⟩

/-- Settles O12: both reads in numbers. -/
theorem sixteenBitReadsAreLittleEndian : Obligations.SixteenBitReadsAreLittleEndian :=
  ⟨fun s a => read16_toNat a s, fun s z => readZP16_toNat z s⟩

/-- Settles O13: a host write is `memWrite`, and replacing the registers hands on the memory. -/
theorem hostAccessIsAnOrdinaryAccess : Obligations.HostAccessIsAnOrdinaryAccess :=
  ⟨fun s a v => ⟨rfl, rfl, memRead_memWrite_same a v s, fun _ hb => memRead_memWrite_ne hb v s⟩,
    fun _ _ => ⟨rfl, rfl, fun _ => rfl⟩⟩

end Sys2Proof.Spec
end

section
/-! SUPPORT. The indexed address and the branch target in numbers (R78, R80, R82, R83), and overflow as a signed number
(R93); and further statements of the families spec/10_state.md, spec/40_addressing_modes.md and
spec/41_alu_flags.md. -/

namespace Sys2Proof.Machine

/-! ### Base plus index -/

/-- The high byte takes the carry out of the low byte, so the address is the sum modulo 65536 (R78). -/
theorem indexed_ea_toNat (base : Addr) (index : Byte) :
    (indexed base index).ea.toNat = (base.toNat + index.toNat) % 65536 := by
  have hbase := base.isLt
  have hindex := index.isLt
  have hone : (1 : Byte).toNat = 1 := rfl
  have hzero : (0 : Byte).toNat = 0 := rfl
  simp only [indexed, word16_toNat, BitVec.toNat_add, highByte_toNat, lowByte_toNat, truncate8_toNat]
  by_cases hcarry : base.toNat % 256 + index.toNat > 0xFF
  · rw [decide_eq_true hcarry, if_pos rfl, hone]
    omega
  · rw [decide_eq_false hcarry, if_neg Bool.false_ne_true, hzero]
    omega

/-- `crossed` is the carry out of the low byte (R83). -/
theorem indexed_crossed (base : Addr) (index : Byte) :
    (indexed base index).crossed = decide (base.toNat % 256 + index.toNat > 0xFF) := by
  rw [indexed, lowByte_toNat]

/-- Base plus index in numbers (R78, R83). -/
theorem indexed_eq (base : Addr) (index : Byte) :
    indexed base index = ⟨BitVec.ofNat 16 ((base.toNat + index.toNat) % 65536),
      decide (base.toNat % 256 + index.toNat > 0xFF)⟩ := by
  have hea : (indexed base index).ea = BitVec.ofNat 16 ((base.toNat + index.toNat) % 65536) := by
    rw [← indexed_ea_toNat, BitVec.ofNat_toNat, BitVec.setWidth_eq]
  rw [← hea, ← indexed_crossed]

theorem page_ne_iff (a b : Addr) : page a ≠ page b ↔ a.toNat / 256 ≠ b.toNat / 256 := by
  rw [← page_toNat, ← page_toNat]
  exact BitVec.toNat_ne

/-- A byte is too small an index to come back to the base's page, so a carry is a change of page (R83). -/
theorem indexed_crossed_iff (base : Addr) (index : Byte) :
    (indexed base index).crossed = true ↔ page (indexed base index).ea ≠ page base := by
  have hbase := base.isLt
  have hindex := index.isLt
  rw [indexed_crossed, decide_eq_true_iff, page_ne_iff, indexed_ea_toNat]
  omega

/-- The base of Indirect,Y in numbers: both bytes of the pointer come from page zero (R82). -/
theorem indexed_readZP16_eq {s : State} {z : Byte} {lo hi : Nat} (index : Byte)
    (hlo : lo = (s.mem.read (BitVec.ofNat 16 z.toNat)).toNat)
    (hhi : hi = (s.mem.read (BitVec.ofNat 16 ((z.toNat + 1) % 256))).toNat) :
    indexed (readZP16 z s) index =
      ⟨BitVec.ofNat 16 ((hi * 256 + lo + index.toNat) % 65536), decide (lo + index.toNat > 0xFF)⟩ := by
  have hbase : (readZP16 z s).toNat = hi * 256 + lo := by rw [readZP16_toNat, ← hlo, ← hhi]
  have hlow : (hi * 256 + lo) % 256 = lo := by
    have hbyte := (s.mem.read (BitVec.ofNat 16 z.toNat)).isLt
    omega
  rw [indexed_eq, hbase, hlow]

/-! ### The branch target -/

theorem branchBase_toNat (pc : Addr) : (branchBase pc).toNat = (pc.toNat + 2) % 65536 := BitVec.toNat_add pc 2

/-- `rel8` extended to 16 bits is the displacement modulo 65536 (R52). -/
theorem sext16_toNat (d : Byte) : ((sext16 d).toNat : Int) = d.toInt % 65536 := by
  rw [← sext16_toInt, BitVec.toInt_eq_toNat_bmod]
  have hlt := (sext16 d).isLt
  simp only [Int.bmod_def]
  omega

/-- The branch target in numbers (R80). -/
theorem branchTarget_ea_toNat (pc : Addr) (d : Byte) :
    ((branchTarget pc d).ea.toNat : Int) = ((pc.toNat : Int) + 2 + d.toInt) % 65536 := by
  have hsum : (branchTarget pc d).ea.toNat = ((branchBase pc).toNat + (sext16 d).toNat) % 65536 := BitVec.toNat_add _ _
  have hbase := branchBase_toNat pc
  have hd := sext16_toNat d
  omega

theorem branchTarget_crossed_iff (pc : Addr) (d : Byte) :
    (branchTarget pc d).crossed = true ↔
      (branchTarget pc d).ea.toNat / 256 ≠ (pc.toNat + 2) % 65536 / 256 := by
  rw [← branchBase_toNat, ← page_ne_iff]
  exact bne_iff_ne

/-! ### Overflow -/

theorem msb_eq (v : Byte) : v.msb = decide (128 ≤ v.toNat) := BitVec.msb_eq_decide v

/-- The signed number of a byte: bit 7 stands for -128, not for 128. -/
theorem toInt_eq (v : Byte) : v.toInt = v.toNat - 256 * (v.toNat / 128 : Nat) := by
  have hv := v.isLt
  rw [BitVec.toInt_eq_toNat_cond]
  split <;> omega

/-- The overflow test in numbers: the operands on one side of 128, the truncated sum on the other (R93). -/
theorem overflowOf_sum_iff (a m : Byte) (c : Bool) :
    overflowOf a m (truncate8 (addIntermediate a m c)) = true ↔
      (128 ≤ a.toNat ↔ 128 ≤ m.toNat) ∧ ¬(128 ≤ (a.toNat + m.toNat + c.toNat) % 256 ↔ 128 ≤ a.toNat) := by
  rw [overflowOf_iff_msb, msb_eq, msb_eq, msb_eq, truncate8_toNat, decide_eq_decide, ne_eq, decide_eq_decide]
  rfl

/-- The overflow test is signed overflow (R93). -/
theorem overflow_iff_signed (a m : Byte) (c : Bool) :
    overflowOf a m (truncate8 (addIntermediate a m c)) = true ↔
      ¬(-128 ≤ a.toInt + m.toInt + c.toNat ∧ a.toInt + m.toInt + c.toNat ≤ 127) := by
  have ha := a.isLt
  have hm := m.isLt
  have hc := c.toNat_le
  rw [overflowOf_sum_iff, toInt_eq, toInt_eq]
  omega

/-- The overflow test compares the carries into and out of bit 7 (R93). -/
theorem overflow_iff_carries (a m : Byte) (c : Bool) :
    overflowOf a m (truncate8 (addIntermediate a m c)) = true ↔
      decide (a.toNat % 128 + m.toNat % 128 + c.toNat ≥ 128) ≠ carryOf (addIntermediate a m c) := by
  have ha := a.isLt
  have hm := m.isLt
  have hc := c.toNat_le
  rw [overflowOf_sum_iff, carryOf, addIntermediate, ne_eq, decide_eq_decide]
  omega

/-- A shift carries out exactly bit 7 (R92). -/
theorem carryOf_shiftIntermediate (v : Byte) : carryOf (shiftIntermediate v) = v.getLsbD 7 := by
  have hbit7 : v.getLsbD 7 = decide (128 ≤ v.toNat) := (BitVec.msb_eq_getLsbD_last v).symm.trans (msb_eq v)
  rw [hbit7, carryOf, shiftIntermediate, decide_eq_decide]
  omega

end Sys2Proof.Machine

namespace Sys2Proof.Spec

open Sys2Proof.Machine

/-- Settles O16: the immediate and absolute forms by evaluation, the indexed ones by the numbers of base plus index. -/
theorem immediateAndAbsoluteForms : Obligations.ImmediateAndAbsoluteForms := by
  refine fun s v a => ⟨⟨rfl, rfl⟩, rfl, ?abx, ?aby, fun _ => rfl⟩
  case abx | aby => rw [← indexed_eq]; rfl

/-- Settles O18: the base is the little-endian word at the pointer, and Y is added as an index. -/
theorem indirectYAddsYToThePointedBase : Obligations.IndirectYAddsYToThePointedBase := by
  refine fun s z lo hi hlo hhi => ⟨?address, ?reads⟩
  case address => rw [← indexed_readZP16_eq s.y hlo hhi]; rfl
  case reads => rw [pointerReads, zext16_add, zext16_eq_ofNat]; rfl

/-- Settles O19: each of the three forms is base plus index. -/
theorem crossedMeansThePageChanged : Obligations.CrossedMeansThePageChanged :=
  fun s a z => ⟨indexed_crossed_iff a s.x, indexed_crossed_iff a s.y, indexed_crossed_iff (readZP16 z s) s.y⟩

/-- Settles O20: the target is the base plus the displacement, and `crossed` compares the pages of the two. -/
theorem branchTargetIsRelativeToTheNextInstruction : Obligations.BranchTargetIsRelativeToTheNextInstruction :=
  fun s d => ⟨branchTarget s.pc d, rfl, branchTarget_ea_toNat s.pc d, branchTarget_crossed_iff s.pc d⟩

/-- Settles O23: the three tests in numbers. -/
theorem overflowIsSignedOverflow : Obligations.OverflowIsSignedOverflow :=
  ⟨fun a m c => ⟨overflow_iff_signed a m c, overflow_iff_carries a m c⟩, carryOf_shiftIntermediate⟩

/-- Settles O21: the places by the definition of the bits, the write by `getFlag_setFlag`. -/
theorem flagsHaveTheirBitOfP : Obligations.FlagsHaveTheirBitOfP :=
  ⟨fun _ => ⟨rfl, rfl, rfl, rfl, rfl, rfl, rfl, rfl⟩, fun f g v p => getFlag_setFlag g f v p⟩

end Sys2Proof.Spec
end

section
/-! SUPPORT. Which shared operation ASL on memory, the branches and the flag instructions are; where every instruction
that is no branch leaves PC (R176); and further statements of the families spec/44_asl.md to spec/47_step_pc.md and
spec/60_exceptions.md. -/

namespace Sys2Proof.Machine

/-! ### The instructions by their operation -/

/-- ASL on memory has a form without pointer bytes, and runs as `shiftMem` with the cycles of its format (R121, R216). -/
theorem exec_of_aslMem {i : Instr} (hm : i.mnemonic = .ASL) (hne : i ≠ .aslAcc) :
    ∃ m, i.operand = .src (.mem m) ∧ exec i = shiftMem m (Spec.aslCycles m.format) ∧ ∀ s, pointerReads m s = [] := by
  cases i with
  | aslAcc => exact absurd rfl hne
  | aslZp z | aslZpx z | aslAbs a | aslAbx a => exact ⟨_, rfl, rfl, fun _ => rfl⟩
  | _ => cases hm

/-- The branches as `Shape` lists them. -/
def shapeBranches : List (Mnemonic × Flag × Bool) :=
  [(.BCC, .C, false), (.BCS, .C, true), (.BEQ, .Z, true), (.BMI, .N, true), (.BNE, .Z, false), (.BPL, .N, false),
    (.BVC, .V, false), (.BVS, .V, true)]

theorem shapeBranches_subset : shapeBranches ⊆ Spec.branchTable := by decide

/-- The branch table has one row per mnemonic. -/
theorem branchTable_functional : ∀ row ∈ Spec.branchTable, ∀ row' ∈ Spec.branchTable,
    row.1 = row'.1 → row = row' := by decide

/-- A branch runs as `branchIf` on the condition of its row (R130 to R138). -/
theorem exec_of_branch {i : Instr} {f : Flag} {v : Bool} (h : (i.mnemonic, f, v) ∈ Spec.branchTable) :
    ∃ d, i.operand = .rel d ∧ exec i = fun s => branchIf (getFlag f s.p == v) d s := by
  generalize hg : exec i = g
  cases hg ▸ exec_shape i with
  | branch d f' v' hrow ho =>
    obtain ⟨rfl, rfl⟩ : f = f' ∧ v = v' := by
      simpa using branchTable_functional _ h _ (shapeBranches_subset hrow) rfl
    exact ⟨d, ho, rfl⟩
  | lda _ _ hm | ldx _ _ hm | ldy _ _ hm | adc _ _ hm | and _ _ hm | aslAcc hm | aslMem _ _ hm | nop hm =>
    simp [hm, Spec.branchTable] at h
  | flag _ _ hrow =>
    cases hm : i.mnemonic <;> simp [hm, Spec.branchTable] at h hrow

/-- A flag instruction writes the flag it names (R150 to R156). -/
theorem exec_of_flag {i : Instr} {f : Flag} {v : Bool}
    (h : (i, f, v) ∈ [(Instr.clc, Flag.C, false), (.cld, .D, false), (.cli, .I, false), (.clv, .V, false),
      (.sec, .C, true), (.sed, .D, true), (.sei, .I, true)]) : exec i = writeFlag f v := by
  simp only [List.mem_cons, List.not_mem_nil, or_false, Prod.mk.injEq] at h
  obtain ⟨rfl, rfl, rfl⟩ | ⟨rfl, rfl, rfl⟩ | ⟨rfl, rfl, rfl⟩ | ⟨rfl, rfl, rfl⟩ | ⟨rfl, rfl, rfl⟩ | ⟨rfl, rfl, rfl⟩ |
    ⟨rfl, rfl, rfl⟩ := h <;> rfl

theorem exists_writeFlag {i : Instr} (h : i ∈ [Instr.clc, .cld, .cli, .clv, .sec, .sed, .sei]) :
    ∃ f v, exec i = writeFlag f v := by
  simp only [List.mem_cons, List.not_mem_nil, or_false] at h
  obtain rfl | rfl | rfl | rfl | rfl | rfl | rfl := h <;> exact ⟨_, _, rfl⟩

/-- Writing a flag again writes nothing new (R158). -/
theorem setFlag_setFlag (f : Flag) (v : Bool) (p : Byte) : setFlag f v (setFlag f v p) = setFlag f v p := by
  apply eq_of_getFlag
  intro g
  rw [getFlag_setFlag, getFlag_setFlag]
  split <;> rfl

/-! ### PC -/

theorem pcAfter_toNat (f : Format) (pc : Addr) : (pcAfter f pc).toNat = (pc.toNat + (1 + f.operandCount)) % 65536 := by
  have hone : (1 : Addr).toNat = 1 := rfl
  rw [pcAfter, BitVec.toNat_add, BitVec.toNat_add, BitVec.toNat_ofNat, hone]
  omega

/-- Every instruction but a branch leaves PC behind itself (R176). -/
theorem exec_pc {i : Instr} {s t : State} (hbranch : i.mnemonic ∉ Spec.branchTable.map Prod.fst)
    (h : exec i s = .next t) : t.pc = pcAfter i.format s.pc := by
  rw [Instr.format]
  generalize hg : exec i = g at h
  cases hg ▸ exec_shape i with
  | lda x b hm ho => obtain rfl := (loadA_next_iff x b s t).1 h; rw [ho]; rfl
  | ldx x b hm ho => obtain rfl := (loadX_next_iff x b s t).1 h; rw [ho]; rfl
  | ldy x b hm ho => obtain rfl := (loadY_next_iff x b s t).1 h; rw [ho]; rfl
  | adc x b hm ho => obtain rfl := (addToA_next_iff x b s t).1 h; rw [ho]; rfl
  | and x b hm ho => obtain rfl := (andToA_next_iff x b s t).1 h; rw [ho]; rfl
  | aslAcc hm ho => obtain rfl := (execAslAcc_next_iff s t).1 h; rw [ho]; rfl
  | aslMem m b hm ho => obtain rfl := (shiftMem_next_iff m b s t).1 h; rw [ho]; rfl
  | branch d f v hrow => cases hm : i.mnemonic <;> simp [hm, Spec.branchTable] at hbranch hrow
  | flag f v hrow ho => obtain rfl := (writeFlag_next_iff f v s t).1 h; rw [ho]; rfl
  | nop hm ho => obtain rfl := (execNop_next_iff s t).1 h; rw [ho]; rfl

end Sys2Proof.Machine

namespace Sys2Proof.Spec

open Sys2Proof.Machine

/-- Settles O31: the one next state of `shiftMem`, written out in `shiftMem_next_iff`, holds the doubled byte at the
effective address and the flags of its shift. -/
theorem aslMemoryShiftsTheByteInPlace : Obligations.AslMemoryShiftsTheByteInPlace := by
  intro i s hm hne
  obtain ⟨m, ho, hexec, hpointer⟩ := exec_of_aslMem hm hne
  have hnext := (shiftMem_next_iff m (aslCycles m.format) s _).2 rfl
  refine ⟨m, _, ho, (congrFun hexec s).trans hnext, ?result, fun b hb => s.mem.read_write_ne hb _, ?accesses,
    carry_flagsOfShift _ s.p, ?zeroSign, flagsKept_flagsOfShift rfl, rfl, rfl, rfl, rfl⟩
  case result => rw [Memory.read_write_same]; exact truncate8_toNat _
  case accesses => rw [ho, operandAccesses, hpointer, if_pos hm]; rfl
  case zeroSign => rw [Memory.read_write_same]; exact zeroSignOf_flagsOfShift rfl

/-- Settles O32: the one next state of a branch, written out in `branchIf_next_iff`, with the target in numbers. -/
theorem branchesFollowTheirFlag : Obligations.BranchesFollowTheirFlag := by
  intro i s f v hrow
  obtain ⟨d, ho, hexec⟩ := exec_of_branch hrow
  have hnext := (branchIf_next_iff (getFlag f s.p == v) d s _).2 rfl
  refine ⟨d, _, ho, (congrFun hexec s).trans hnext, fun htaken => ?taken, fun huntaken => ?untaken,
    rfl, rfl, rfl, rfl, rfl, fun _ => rfl⟩
  case taken =>
    have hcrossed := branchTarget_crossed_iff s.pc d
    simp only [beq_iff_eq.2 htaken, if_true]
    refine ⟨branchTarget_ea_toNat s.pc d, congrArg (s.cyc + ·) ?_⟩
    by_cases hpage : (branchTarget s.pc d).ea.toNat / 256 = (s.pc.toNat + 2) % 65536 / 256
    · rw [if_pos hpage, if_neg fun h => hcrossed.1 h hpage]
      rfl
    · rw [if_neg hpage, if_pos (hcrossed.2 hpage)]
      rfl
  case untaken =>
    simp only [beq_eq_false_iff_ne.2 huntaken]
    exact ⟨branchBase_toNat s.pc, rfl⟩

/-- Settles O33: the one next state of `writeFlag`, written out in `writeFlag_next_iff`. -/
theorem flagInstructionsWriteOneFlag : Obligations.FlagInstructionsWriteOneFlag := by
  intro i f v s hrow
  have hnext := (writeFlag_next_iff f v s _).2 rfl
  refine ⟨_, (congrFun (exec_of_flag hrow) s).trans hnext, ?written,
    AgreeOutside.setFlag_self List.mem_cons_self v s.p, rfl, rfl, rfl, rfl, fun _ => rfl⟩
  case written => exact (getFlag_setFlag f f v s.p).trans (if_pos rfl)

/-- Settles O35: the second copy writes the flag that the first has written. -/
theorem flagInstructionsAreIdempotent : Obligations.FlagInstructionsAreIdempotent := by
  intro i s hi
  obtain ⟨f, v, hexec⟩ := exists_writeFlag hi
  rw [hexec]
  exact ⟨_, _, (writeFlag_next_iff f v s _).2 rfl, (writeFlag_next_iff f v _ _).2 rfl, rfl, rfl, rfl, rfl,
    setFlag_setFlag f v s.p, fun _ => rfl⟩

/-- Settles O36: every instruction completes, and one that is no branch leaves PC behind itself. -/
theorem pcAdvancesByTheLength : Obligations.PcAdvancesByTheLength := by
  intro i s hbranch
  obtain ⟨t, hexec⟩ := exec_completes i s
  refine ⟨t, hexec, ?_⟩
  rw [exec_pc hbranch hexec, pcAfter_toNat, Instr.length]

/-- Settles O37: every instruction completes and changes as little as `exec_changes_little` says. -/
theorem onlyNamedFlagsAreWritten : Obligations.OnlyNamedFlagsAreWritten := by
  intro i s
  obtain ⟨t, hexec⟩ := exec_completes i s
  exact ⟨t, hexec, (exec_changes_little hexec).flags, not_mem_flagsWritten (by decide) i.mnemonic,
    not_mem_flagsWritten (by decide) i.mnemonic⟩

end Sys2Proof.Spec
end

section
/-! SUPPORT. What every instruction adds to the cycle total, and the decoder's count of it (R177, R216 to R218); and
further statements of the family spec/70_reset_and_hazards.md. -/

namespace Sys2Proof.Machine

/-! ### The cycles of the meanings -/

/-- A reading instruction runs as its mnemonic's operation with the cycles of its format (R216). -/
theorem exec_of_reading {i : Instr} {op : Source → Nat → State → Outcome} {x : Source}
    (h : readingOp i.mnemonic = some op) (ho : i.operand = .src x) : exec i = op x (Spec.readingCycles x.format).1 := by
  cases i with
  | ldaImm | ldaZp | ldaZpx | ldaAbs | ldaAbx | ldaAby | ldaIzx | ldaIzy | ldxImm | ldxZp | ldxZpy | ldxAbs | ldxAby
  | ldyImm | ldyZp | ldyZpx | ldyAbs | ldyAbx | adcImm | adcZp | adcZpx | adcAbs | adcAbx | adcAby | adcIzx | adcIzy
  | andImm | andZp | andZpx | andAbs | andAbx | andAby | andIzx | andIzy => cases h; cases ho; rfl
  | _ => cases h

/-- The five reading operations count alike: the base, and the page-cross penalty (R217). -/
theorem readingOp_cyc {m : Mnemonic} {op : Source → Nat → State → Outcome} {x : Source} {base : Nat} {s t : State}
    (hop : readingOp m = some op) (h : op x base s = .next t) :
    t.cyc = s.cyc + BitVec.ofNat 32 (base + sourcePenalty x s) := by
  cases m with
  | LDA => cases hop; obtain rfl := (loadA_next_iff x base s t).1 h; rfl
  | LDX => cases hop; obtain rfl := (loadX_next_iff x base s t).1 h; rfl
  | LDY => cases hop; obtain rfl := (loadY_next_iff x base s t).1 h; rfl
  | ADC => cases hop; obtain rfl := (addToA_next_iff x base s t).1 h; rfl
  | AND => cases hop; obtain rfl := (andToA_next_iff x base s t).1 h; rfl
  | _ => cases hop

/-- Only a format with a penalty can be found crossing a page (R83, R217). -/
theorem sourcePenalty_eq (x : Source) (s : State) :
    sourcePenalty x s =
      if (Spec.readingCycles x.format).2 = true ∧ (resolveSource x s).crossed = true then 1 else 0 := by
  cases x with
  | imm v => rfl
  | mem m =>
    cases m with
    | abx a | aby a | izy z => exact if_congr (and_iff_right rfl).symm rfl rfl
    | zp z | zpx z | zpy z | abs a | izx z => exact (if_neg fun h => Bool.false_ne_true h.1).symm

theorem exec_cyc_of_reading {i : Instr} {op : Source → Nat → State → Outcome} {x : Source} {s t : State}
    (hop : readingOp i.mnemonic = some op) (ho : i.operand = .src x) (h : exec i s = .next t) :
    t.cyc = s.cyc + BitVec.ofNat 32 ((Spec.readingCycles i.format).1 +
      (if (Spec.readingCycles i.format).2 = true ∧ (resolve i.operand s).crossed = true then 1 else 0)) := by
  rw [exec_of_reading hop ho] at h
  rw [readingOp_cyc hop h, sourcePenalty_eq, Instr.format, ho]
  rfl

theorem exec_cyc_of_asl {i : Instr} {s t : State} (hm : i.mnemonic = .ASL) (h : exec i s = .next t) :
    t.cyc = s.cyc + BitVec.ofNat 32 (Spec.aslCycles i.format) := by
  by_cases hacc : i = .aslAcc
  · subst hacc
    obtain rfl := (execAslAcc_next_iff s t).1 h
    rfl
  · obtain ⟨m, ho, hexec, -⟩ := exec_of_aslMem hm hacc
    rw [hexec] at h
    obtain rfl := (shiftMem_next_iff m _ s t).1 h
    rw [Instr.format, ho]
    rfl

/-- The instructions without operand take 2 cycles (R216). -/
theorem exec_cyc_of_imp {i : Instr} {s t : State} (ho : i.operand = .imp) (h : exec i s = .next t) :
    t.cyc = s.cyc + BitVec.ofNat 32 2 := by
  generalize hg : exec i = g at h
  cases hg ▸ exec_shape i with
  | flag f v => obtain rfl := (writeFlag_next_iff f v s t).1 h; rfl
  | nop => obtain rfl := (execNop_next_iff s t).1 h; rfl
  | lda _ _ _ ho' | ldx _ _ _ ho' | ldy _ _ _ ho' | adc _ _ _ ho' | and _ _ _ ho' | aslAcc _ ho' | aslMem _ _ _ ho'
  | branch _ _ _ _ ho' => cases ho.symm.trans ho'

/-- `branchTaken` is the condition of the branch's row (R131 to R138). -/
theorem branchTaken_eq {m : Mnemonic} {f : Flag} {v : Bool} (h : (m, f, v) ∈ Spec.branchTable) (p : Byte) :
    branchTaken m p = (getFlag f p == v) := by
  simp only [Spec.branchTable, List.mem_cons, List.not_mem_nil, or_false, Prod.mk.injEq] at h
  obtain ⟨rfl, rfl, rfl⟩ | ⟨rfl, rfl, rfl⟩ | ⟨rfl, rfl, rfl⟩ | ⟨rfl, rfl, rfl⟩ | ⟨rfl, rfl, rfl⟩ | ⟨rfl, rfl, rfl⟩ |
    ⟨rfl, rfl, rfl⟩ | ⟨rfl, rfl, rfl⟩ := h <;> simp [branchTaken]

/-- A relative operand belongs to a branch of the table (R130). -/
theorem mem_branchTable_of_rel {i : Instr} {d : Byte} (h : i.operand = .rel d) :
    ∃ f v, (i.mnemonic, f, v) ∈ Spec.branchTable := by
  generalize hg : exec i = g
  cases hg ▸ exec_shape i with
  | branch _ f v hrow => exact ⟨f, v, shapeBranches_subset hrow⟩
  | lda _ _ _ ho | ldx _ _ _ ho | ldy _ _ _ ho | adc _ _ _ ho | and _ _ _ ho | aslAcc _ ho | aslMem _ _ _ ho
  | flag _ _ _ ho | nop _ ho => cases h.symm.trans ho

/-- A branch takes 2 cycles, 3 when taken, 4 when taken to another page (R218). -/
theorem exec_cyc_of_rel {i : Instr} {d : Byte} {s t : State} (ho : i.operand = .rel d) (h : exec i s = .next t) :
    t.cyc = s.cyc + BitVec.ofNat 32
      (2 + extraCycles .branch (resolve i.operand s) (branchTaken i.mnemonic s.p)) := by
  obtain ⟨f, v, hrow⟩ := mem_branchTable_of_rel ho
  obtain ⟨d', ho', hexec⟩ := exec_of_branch hrow
  obtain rfl : d = d' := Operand.rel.inj (ho.symm.trans ho')
  rw [hexec] at h
  obtain rfl := (branchIf_next_iff (getFlag f s.p == v) d s t).1 h
  rw [branchTaken_eq hrow, ho]
  cases getFlag f s.p == v with
  | false => rfl
  | true => exact congrArg (s.cyc + BitVec.ofNat 32 ·) (Nat.add_assoc 2 1 _)

/-! ### The cycles of the decoder's table -/

/-- The table's counts are those of R216 to R218, by mnemonic and format. -/
theorem opcodeTable_cycles : ∀ r ∈ opcodeTable,
    (r.mnemonic ∈ [.LDA, .LDX, .LDY, .ADC, .AND] → r.baseCycles = (Spec.readingCycles r.format).1 ∧
      r.cycleRule = if (Spec.readingCycles r.format).2 then .ifCrossed else .fixed) ∧
    (r.mnemonic = .ASL → r.baseCycles = Spec.aslCycles r.format ∧ r.cycleRule = .fixed) ∧
    (r.format = .REL → r.baseCycles = 2 ∧ r.cycleRule = .branch) ∧
    (r.format = .IMP → r.baseCycles = 2 ∧ r.cycleRule = .fixed) := by decide

/-- The most that a cycle rule adds (R217, R218). -/
def maxExtra : CycleRule → Nat
  | .fixed => 0
  | .ifCrossed => 1
  | .branch => 2

theorem extraCycles_le (rule : CycleRule) (r : Resolved) (taken : Bool) : extraCycles rule r taken ≤ maxExtra rule := by
  cases rule <;> cases taken <;> cases h : r.crossed <;> simp [extraCycles, maxExtra, h]

theorem opcodeTable_bounds : ∀ r ∈ opcodeTable, 2 ≤ r.baseCycles ∧ r.baseCycles + maxExtra r.cycleRule ≤ 7 := by decide

theorem rowCycles_bounds {r : OpcodeRow} (hr : r ∈ opcodeTable) (i : Instr) (s : State) :
    2 ≤ rowCycles r i s ∧ rowCycles r i s ≤ 7 := by
  obtain ⟨hlow, hhigh⟩ := opcodeTable_bounds r hr
  have hextra := extraCycles_le r.cycleRule (resolve i.operand s) (branchTaken i.mnemonic s.p)
  exact ⟨hlow.trans (Nat.le_add_right _ _), (Nat.add_le_add_left hextra _).trans hhigh⟩

/-! ### The two counts agree -/

theorem exists_readingOp {m : Mnemonic} (h : m ∈ [.LDA, .LDX, .LDY, .ADC, .AND]) : ∃ op, readingOp m = some op := by
  simp only [List.mem_cons, List.not_mem_nil, or_false] at h
  obtain rfl | rfl | rfl | rfl | rfl := h <;> exact ⟨_, rfl⟩

/-- The extra cycle of a rule that applies only where the format has a penalty (R217). -/
theorem extraCycles_reading (penalty : Bool) (r : Resolved) (taken : Bool) :
    extraCycles (if penalty then .ifCrossed else .fixed) r taken =
      if penalty = true ∧ r.crossed = true then 1 else 0 := by
  cases penalty with
  | false => rfl
  | true => exact if_congr (and_iff_right rfl).symm rfl rfl

theorem exec_cyc_of_reading_row {r : OpcodeRow} {i : Instr} {x : Source} {s t : State} (hr : r ∈ opcodeTable)
    (hm : i.mnemonic = r.mnemonic) (hf : i.format = r.format) (hi : i.mnemonic ∈ [.LDA, .LDX, .LDY, .ADC, .AND])
    (ho : i.operand = .src x) (h : exec i s = .next t) : t.cyc = s.cyc + BitVec.ofNat 32 (rowCycles r i s) := by
  obtain ⟨op, hop⟩ := exists_readingOp hi
  obtain ⟨hbase, hrule⟩ := (opcodeTable_cycles r hr).1 (hm ▸ hi)
  rw [exec_cyc_of_reading hop ho h, rowCycles, hbase, hrule, extraCycles_reading, hf]

/-- Every instruction adds to the cycle total what its row of the decoder's table says (R177). -/
theorem exec_cyc_of_row {r : OpcodeRow} {i : Instr} {s t : State} (hr : r ∈ opcodeTable)
    (hm : i.mnemonic = r.mnemonic) (hf : i.format = r.format) (h : exec i s = .next t) :
    t.cyc = s.cyc + BitVec.ofNat 32 (rowCycles r i s) := by
  obtain ⟨-, hasl, hrel, himp⟩ := opcodeTable_cycles r hr
  generalize hg : exec i = g
  cases hg ▸ exec_shape i with
  | lda x b hi ho | ldx x b hi ho | ldy x b hi ho | adc x b hi ho | and x b hi ho =>
    exact exec_cyc_of_reading_row hr hm hf (by rw [hi]; decide) ho h
  | aslAcc hi | aslMem _ _ hi =>
    obtain ⟨hbase, hrule⟩ := hasl (hm ▸ hi)
    rw [exec_cyc_of_asl hi h, rowCycles, hbase, hrule, hf]
    rfl
  | branch d f v hrow ho =>
    obtain ⟨hbase, hrule⟩ := hrel (by rw [← hf, Instr.format, ho]; rfl)
    rw [exec_cyc_of_rel ho h, rowCycles, hbase, hrule]
  | flag _ _ _ ho | nop _ ho =>
    obtain ⟨hbase, hrule⟩ := himp (by rw [← hf, Instr.format, ho]; rfl)
    rw [exec_cyc_of_imp ho h, rowCycles, hbase, hrule]
    rfl

theorem stepCycles_of_lookup_none {s : State} (h : lookupOpcode (opcodeAtPC s) = none) : stepCycles s = none := by
  rw [stepCycles, h]

theorem stepCycles_of_fetch_ok {s : State} {r : OpcodeRow} {i : Instr} (h : lookupOpcode (opcodeAtPC s) = some r)
    (hf : fetch s = .ok i) : stepCycles s = some (rowCycles r i s) := by
  rw [stepCycles, h, hf]

end Sys2Proof.Machine

namespace Sys2Proof.Spec

open Sys2Proof.Machine

/-- Settles O38: the reading instructions, ASL and the instructions without operand, each by its own lemma. -/
theorem cyclesFollowTheTable : Obligations.CyclesFollowTheTable := by
  refine fun i s t h => ⟨fun x hm ho => ?reading, fun hm => exec_cyc_of_asl hm h, fun ho => exec_cyc_of_imp ho h⟩
  obtain ⟨op, hop⟩ := exists_readingOp hm
  exact exec_cyc_of_reading hop ho h

/-- Settles O39: the row looked up is that of the instruction fetched, whose meaning adds the row's cycles. -/
theorem returnedCyclesAreAddedToTheTotal : Obligations.ReturnedCyclesAreAddedToTheTotal := by
  refine ⟨fun s t hstep => ?counted, fun s hunassigned => stepCycles_of_lookup_none hunassigned⟩
  obtain ⟨i, hfetch, hexec⟩ := step_next_iff.1 hstep
  obtain ⟨r, hl, hm, hf⟩ := lookupOpcode_of_fetch_ok hfetch
  obtain ⟨hr, -⟩ := lookupOpcode_some hl
  obtain ⟨hlow, hhigh⟩ := rowCycles_bounds hr i s
  refine ⟨_, stepCycles_of_fetch_ok hl hfetch, hlow, hhigh, ?_⟩
  rw [exec_cyc_of_row hr hm hf hexec, BitVec.toNat_add, BitVec.toNat_ofNat, Nat.add_mod_mod]

end Sys2Proof.Spec
end
